-- ==== Sys2Proof/Word.lean ====
section
/-! DEFINITION. The widths of the machine's values (rules R6, R14): 16-bit cells, 13-bit addresses, 3-bit register
numbers, 7-bit immediates. -/

namespace Sys2Proof

/-- The content of a register or of a memory cell, and an instruction word: 16 bits (R14, R20, R28). -/
abbrev Word := BitVec 16

/-- A memory address and the program counter: 13 bits, 0 to 8191 (R14, R23). -/
abbrev Addr := BitVec 13

/-- A register number, 0 to 7 (R20). -/
abbrev Reg := BitVec 3

/-- The immediate field of the register-immediate / memory format: 7 bits (R83). -/
abbrev Imm := BitVec 7

end Sys2Proof
end

