-- ==== Sys2Proof/Syntax.lean ====
section
/-! DEFINITION. The instructions: one constructor for each of the 23 rows of spec/opcode_table.json, in its order. -/

namespace Sys2Proof

/-- An instruction with its fields as rules R82 to R86 name them. `ra`, `rb`, `rd` are w[12:10], w[9:7], w[6:4]; `imm` is
w[6:0]; `target` is w[12:0]. Fields that an instruction ignores (R89, R166, R167) are kept, so that a word and its
instruction determine each other. -/
inductive Instr where
  /-- R161: rd takes ra + rb. -/
  | add (ra rb rd : Reg)
  /-- R162: rd takes ra - rb. -/
  | sub (ra rb rd : Reg)
  /-- R163: rd takes ra OR rb. -/
  | or (ra rb rd : Reg)
  /-- R164: rd takes ra AND rb. -/
  | and (ra rb rd : Reg)
  /-- R165: rd takes 1 if ra < rb, unsigned, else 0. -/
  | slt (ra rb rd : Reg)
  /-- R166: jump to the address in ra; rb and rd are ignored. -/
  | jr (ra rb rd : Reg)
  /-- R167: reserved function code 0101, a no-op. -/
  | reserved0101 (ra rb rd : Reg)
  /-- R167: reserved function code 0110, a no-op. -/
  | reserved0110 (ra rb rd : Reg)
  /-- R167: reserved function code 0111, a no-op. -/
  | reserved0111 (ra rb rd : Reg)
  /-- R167: reserved function code 1001, a no-op. -/
  | reserved1001 (ra rb rd : Reg)
  /-- R167: reserved function code 1010, a no-op. -/
  | reserved1010 (ra rb rd : Reg)
  /-- R167: reserved function code 1011, a no-op. -/
  | reserved1011 (ra rb rd : Reg)
  /-- R167: reserved function code 1100, a no-op. -/
  | reserved1100 (ra rb rd : Reg)
  /-- R167: reserved function code 1101, a no-op. -/
  | reserved1101 (ra rb rd : Reg)
  /-- R167: reserved function code 1110, a no-op. -/
  | reserved1110 (ra rb rd : Reg)
  /-- R167: reserved function code 1111, a no-op. -/
  | reserved1111 (ra rb rd : Reg)
  /-- R181: rb takes ra + sext7(imm). -/
  | addi (ra rb : Reg) (imm : Imm)
  /-- R183: load-word, base ra, destination rb. -/
  | lw (ra rb : Reg) (imm : Imm)
  /-- R184: store-word, base ra, stored register rb. -/
  | sw (ra rb : Reg) (imm : Imm)
  /-- R185: branch-if-equal on ra and rb, relative to pc + 1. -/
  | jeq (ra rb : Reg) (imm : Imm)
  /-- R182: rb takes 1 if ra < sext7(imm), unsigned, else 0. -/
  | slti (ra rb : Reg) (imm : Imm)
  /-- R201: unconditional jump; the halt pattern when the target is its own address (R203). -/
  | j (target : Addr)
  /-- R202: jump-and-link through register 7. -/
  | jal (target : Addr)
  deriving DecidableEq, Repr

end Sys2Proof
end

