-- ==== Sys2Proof/Decode.lean ====
section
/-! DEFINITION. From a word to its instruction and back, by rules R80 to R91. Opcode values and function codes are the
spec's decision D1 and the field positions its decision D2, both from general knowledge (logs 15, 16): they stand here
and nowhere else. -/

namespace Sys2Proof

/-- R81: the opcode, w[15:13]. -/
def opcodeOf (w : Word) : BitVec 3 := w.extractLsb' 13 3

/-- R82, R83: the field ra, w[12:10]. -/
def raOf (w : Word) : Reg := w.extractLsb' 10 3

/-- R82, R83: the field rb, w[9:7]. -/
def rbOf (w : Word) : Reg := w.extractLsb' 7 3

/-- R82: the field rd, w[6:4]. -/
def rdOf (w : Word) : Reg := w.extractLsb' 4 3

/-- R82: the function code, w[3:0]. -/
def funcOf (w : Word) : BitVec 4 := w.extractLsb' 0 4

/-- R83: the immediate field, w[6:0]. -/
def immOf (w : Word) : Imm := w.extractLsb' 0 7

/-- R84: the jump target, w[12:0]. -/
def targetOf (w : Word) : Addr := w.extractLsb' 0 13

/-- R88: the instruction of a register-register word, by its function code alone. -/
def decodeRR (func : BitVec 4) (ra rb rd : Reg) : Instr :=
  match func with
  | 0b0000#4 => .add ra rb rd
  | 0b0001#4 => .sub ra rb rd
  | 0b0010#4 => .or ra rb rd
  | 0b0011#4 => .and ra rb rd
  | 0b0100#4 => .slt ra rb rd
  | 0b0101#4 => .reserved0101 ra rb rd
  | 0b0110#4 => .reserved0110 ra rb rd
  | 0b0111#4 => .reserved0111 ra rb rd
  | 0b1000#4 => .jr ra rb rd
  | 0b1001#4 => .reserved1001 ra rb rd
  | 0b1010#4 => .reserved1010 ra rb rd
  | 0b1011#4 => .reserved1011 ra rb rd
  | 0b1100#4 => .reserved1100 ra rb rd
  | 0b1101#4 => .reserved1101 ra rb rd
  | 0b1110#4 => .reserved1110 ra rb rd
  | _ => .reserved1111 ra rb rd -- 1111, the one value left

/-- R87, R89: the instruction of a word, by its opcode and, for opcode 000, its function code. Every word has one
(R89, R90); all eight opcodes are assigned (R91, C5). -/
def decode (w : Word) : Instr :=
  match opcodeOf w with
  | 0b000#3 => decodeRR (funcOf w) (raOf w) (rbOf w) (rdOf w)
  | 0b001#3 => .addi (raOf w) (rbOf w) (immOf w)
  | 0b010#3 => .j (targetOf w)
  | 0b011#3 => .jal (targetOf w)
  | 0b100#3 => .lw (raOf w) (rbOf w) (immOf w)
  | 0b101#3 => .sw (raOf w) (rbOf w) (immOf w)
  | 0b110#3 => .jeq (raOf w) (rbOf w) (immOf w)
  | 0b111#3 => .slti (raOf w) (rbOf w) (immOf w)

/-- Why a number is no instruction. No 16-bit word is rejected (R90): only a number that is no word is. -/
inductive DecodeError where
  /-- The table gives the row more bits than the one cell an instruction has (R80). -/
  | longerThanACell
  /-- The number has a bit above bit 15 (R80). -/
  | bitsAboveTheCell
  deriving DecidableEq, Repr

/-- The instruction whose bits are `w`, given in at most `nbits` bits (log 17). -/
def decodeBits (nbits w : Nat) : Except DecodeError Instr :=
  if 16 < nbits then .error .longerThanACell
  else if 65536 ≤ w then .error .bitsAboveTheCell
  else .ok (decode (BitVec.ofNat 16 w))

/-- The host's probe of the decoder: the instruction read from the bits `w`, or none where `decodeBits` rejects. -/
def decodeTableWord (nbits w : Nat) : Option Instr :=
  match decodeBits nbits w with
  | .ok i => some i
  | .error _ => none

/-- R82: a word of the register-register format, opcode 000. -/
def wordRR (ra rb rd : Reg) (func : BitVec 4) : Word :=
  (0b000#3 ++ ra ++ rb ++ rd ++ func).cast (by decide)

/-- R83: a word of the register-immediate / memory format. -/
def wordRI (op : BitVec 3) (ra rb : Reg) (imm : Imm) : Word :=
  (op ++ ra ++ rb ++ imm).cast (by decide)

/-- R84: a word of the control-transfer format. -/
def wordCT (op : BitVec 3) (target : Addr) : Word :=
  (op ++ target).cast (by decide)

/-- The word of an instruction, by the encoding lines of rules R161 to R167, R181 to R185, R201 and R202. -/
def encode (i : Instr) : Word :=
  match i with
  | .add ra rb rd => wordRR ra rb rd 0b0000
  | .sub ra rb rd => wordRR ra rb rd 0b0001
  | .or ra rb rd => wordRR ra rb rd 0b0010
  | .and ra rb rd => wordRR ra rb rd 0b0011
  | .slt ra rb rd => wordRR ra rb rd 0b0100
  | .jr ra rb rd => wordRR ra rb rd 0b1000
  | .reserved0101 ra rb rd => wordRR ra rb rd 0b0101
  | .reserved0110 ra rb rd => wordRR ra rb rd 0b0110
  | .reserved0111 ra rb rd => wordRR ra rb rd 0b0111
  | .reserved1001 ra rb rd => wordRR ra rb rd 0b1001
  | .reserved1010 ra rb rd => wordRR ra rb rd 0b1010
  | .reserved1011 ra rb rd => wordRR ra rb rd 0b1011
  | .reserved1100 ra rb rd => wordRR ra rb rd 0b1100
  | .reserved1101 ra rb rd => wordRR ra rb rd 0b1101
  | .reserved1110 ra rb rd => wordRR ra rb rd 0b1110
  | .reserved1111 ra rb rd => wordRR ra rb rd 0b1111
  | .addi ra rb imm => wordRI 0b001 ra rb imm
  | .lw ra rb imm => wordRI 0b100 ra rb imm
  | .sw ra rb imm => wordRI 0b101 ra rb imm
  | .jeq ra rb imm => wordRI 0b110 ra rb imm
  | .slti ra rb imm => wordRI 0b111 ra rb imm
  | .j target => wordCT 0b010 target
  | .jal target => wordCT 0b011 target

end Sys2Proof
end

