-- ==== Sys2Proof/Config.lean ====
section
/-! DEFINITION. What a launch fixes for a whole run: the parameters of rule R6 other than the memory image. The model
needs no free value: no instruction of this machine leaves a result open. -/

namespace Sys2Proof

/-- A cache configuration: total size in words, associativity in blocks, block size in words (R6, R29). -/
structure CacheConfig where
  size : Nat
  assoc : Nat
  blockSize : Nat
  deriving DecidableEq, Repr

/-- The named parameters of a run but for the image (R6, P1 to P3): the level-1 configuration, the optional level-2
configuration, and the choice between the literal load-word (false, the default) and the corrected one (true). -/
structure Params where
  l1 : CacheConfig
  l2 : Option CacheConfig
  loadHitReadsMemory : Bool
  deriving DecidableEq, Repr

/-- DESIGN CHOICE (log 8). The parameters `State.reset` stands at: the level-1 cache of the spec's own scenario S2 and
of its test programs, no level 2, and the spec's default for the load-word setting (R6). The spec leaves L1 and L2 open
(P1, P2); no statement about every state rests on this value. -/
def Params.standard : Params :=
  { l1 := { size := 4, assoc := 1, blockSize := 1 }, l2 := none, loadHitReadsMemory := false }

end Sys2Proof
end

