-- ==== Sys2Proof/Machine/Geometry.lean ====
section
/-! DEFINITION. The geometry of one cache level (rules R111, R112). -/

namespace Sys2Proof

/-- R111: the configurations a run may start with. The three lower bounds and the refusal of every other configuration
are the spec's decision D12 (log 12); sizes need not be powers of two (D21). -/
def CacheConfig.admitted (c : CacheConfig) : Bool :=
  decide (1 ≤ c.size) && decide (1 ≤ c.assoc) && decide (1 ≤ c.blockSize)
    && c.size % (c.assoc * c.blockSize) == 0

/-- R111: the number of rows, size div (assoc * blockSize). -/
def CacheConfig.numRows (c : CacheConfig) : Nat := c.size / (c.assoc * c.blockSize)

/-- R112: the block number of an address, a div blockSize. -/
def CacheConfig.blockNumber (c : CacheConfig) (a : Addr) : Nat := a.toNat / c.blockSize

/-- R112: the tag of an address, blockNumber div numRows. -/
def CacheConfig.tagOf (c : CacheConfig) (a : Addr) : Nat := c.blockNumber a / c.numRows

/-- R112: the row of an address, blockNumber mod numRows. -/
def CacheConfig.rowOf (c : CacheConfig) (a : Addr) : Nat := c.blockNumber a % c.numRows

end Sys2Proof
end

