-- ==== Sys2Proof/Machine/State.lean ====
section
/-! DEFINITION. The state of the machine as plain data (10_state.md), the reasons a step can stop, and the state at
launch and at reset. -/

namespace Sys2Proof.Machine

/-- A listed memory cell: its address and its 16-bit content (R28, R50: nothing smaller than a cell is addressable, so a
cell and not a byte is the unit held; log 5). -/
abbrev MemCell := Nat × Word

/-- Main memory (R28): the cells that differ from `unlistedCell`, by strictly rising address. -/
abbrev Memory := List MemCell

/-- What an address that memory does not list reads as. Cells the program listing does not mention are 0 at reset
(R38, the spec's decision D8; log 4). -/
def unlistedCell : Word := 0

/-- The canonical form of memory: addresses strictly rise, all are addresses of the 8192 cells, and no entry holds what
an unlisted cell reads as; so equal memories are equal data (log 5). -/
abbrev Memory.wf (m : Memory) : Prop :=
  m.Pairwise (fun c d => c.1 < d.1) ∧ ∀ c ∈ m, c.1 < 8192 ∧ c.2 ≠ unlistedCell

/-- A cache block (R30). `tag` and `recency` are natural numbers without a bound (D17, D9; log 9). -/
structure Block where
  valid : Bool
  tag : Nat
  recency : Nat
  deriving DecidableEq, Repr

/-- A cache row: its blocks in index order (R31). -/
abbrev Row := List Block

/-- One cache level: its configuration, which no step changes, and its rows in index order (R31). It holds no data. -/
structure Cache where
  config : CacheConfig
  rows : List Row
  deriving DecidableEq, Repr

/-- The label of a log event: the level touched (R141). -/
inductive CacheLabel where
  | l1
  | l2
  deriving DecidableEq, Repr

/-- The classification of a log event (R146). -/
inductive Classification where
  | hit
  | miss
  | sw
  deriving DecidableEq, Repr

/-- A log event (R146): the level, the classification, the address the instruction was fetched from, the effective
address, and the row index in that level's geometry. -/
structure LogEvent where
  label : CacheLabel
  classification : Classification
  pc : Addr
  address : Addr
  row : Nat
  deriving DecidableEq, Repr

/-- The machine's state (R8, R20 to R33) and, beside it, the log-event stream so far, oldest first (R12, R145), which no
instruction reads (log 10), and the launch parameters that a step consults, which no instruction changes (R6, log 7). -/
structure State where
  /-- The general registers, cells 0 to 7 (R20). -/
  regs : Vector Word 8
  /-- The program counter, 13 bits (R23). -/
  pc : Addr
  /-- Main memory (R28). -/
  mem : Memory
  /-- The level-1 cache, always present (R31, R140). -/
  l1 : Cache
  /-- The level-2 cache, absent when no configuration is supplied (R31). -/
  l2 : Option Cache
  /-- The run status (R33). -/
  halted : Bool
  /-- The log-event stream so far (R12, R217). -/
  log : List LogEvent
  /-- The launch parameter LOAD_HIT_READS_MEMORY (R6, P3). -/
  loadHitReadsMemory : Bool
  deriving DecidableEq, Repr

/-- Why a machine has no further step. -/
inductive Fault where
  /-- Raised by `step` alone, in a halted machine: "When `halted` is true there is no step" (R216). Safe: it is the
  run's own end, and the model takes no step the machine does not have (log 11). -/
  | halted
  deriving DecidableEq, Repr

/-- Why the model gives no behaviour. -/
inductive Refusal where
  /-- An instruction without a meaning; no arm of this model answers it. Safe. -/
  | notModelled (mnemonic : String)
  /-- Raised by `step` alone, before anything runs, where a level's configuration breaks rule R111: "the machine defined
  by this spec has no behaviour for it". Safe: the model says nothing of such a run (log 12). -/
  | cacheConfigNotAdmitted
  deriving DecidableEq, Repr

/-- R39: a block right after reset, invalid with recency 0; its tag is 0 and cannot be observed (log 6). -/
def Block.atReset : Block := { valid := false, tag := 0, recency := 0 }

/-- R31, R39: a level right after reset, numRows rows of assoc blocks. -/
def Cache.atReset (c : CacheConfig) : Cache :=
  { config := c, rows := List.replicate c.numRows (List.replicate c.assoc Block.atReset) }

/-- The state right after reset for the parameters and the image of a launch (R11, R35 to R40, R260, R261): pc 0 and
x[0] 0 (log 1), x[1] to x[7] 0 (log 2), memory equal to the image. -/
def State.launch (p : Params) (image : Memory) : State :=
  { regs := Vector.replicate 8 0
    pc := 0
    mem := image
    l1 := Cache.atReset p.l1
    l2 := p.l2.map Cache.atReset
    halted := false
    log := []
    loadHitReadsMemory := p.loadHitReadsMemory }

/-- The machine right after reset at the model's standard parameters (log 8), with an image of zeros: no program is put
in (log 14). -/
def State.reset : State := State.launch Params.standard []

end Sys2Proof.Machine
end

