-- ==== Sys2Proof/Machine/Ops.lean ====
section
/-! DEFINITION. The named operations over registers, program counter, run status and memory (R15, R20 to R33, R50 to
R60). The machine takes no exception and returns from none (R230, R234, R235), so there is no operation for either. -/

namespace Sys2Proof.Machine

/-- R15 `x[i]`: the content of register i. -/
def State.reg (s : State) (r : Reg) : Word := s.regs[r.toNat]'r.isLt

/-- R15 `x[i] <- v`. A write to register 0 lands and is undone by `State.retire` in the same step (R21, log 3). -/
def State.setReg (s : State) (r : Reg) (v : Word) : State :=
  { s with regs := s.regs.set r.toNat v r.isLt }

/-- R15 `pc <- t`. -/
def State.setPc (s : State) (t : Addr) : State := { s with pc := t }

/-- R23, R24: the address after pc, modulo 8192. -/
def State.nextPc (s : State) : Addr := s.pc + 1

/-- The common end of every dispatched instruction: `x[0] <- 0; pc <- t` (R21, R214, R215). -/
def State.retire (s : State) (t : Addr) : State := (s.setReg 0 0).setPc t

/-- R15 `halt`: set the run status and change nothing else (R33, R203). -/
def State.halt (s : State) : State := { s with halted := true }

/-- The content of the cell at a numeric address: the first entry listed for it, else what unlisted cells read as. -/
def Memory.cellAt : Memory → Nat → Word
  | [], _ => unlistedCell
  | (k, v) :: rest, a => if a = k then v else Memory.cellAt rest a

/-- A memory without any entry for an address. -/
def Memory.without (m : Memory) (a : Nat) : Memory := m.filter (fun c => c.1 != a)

/-- Put an entry before the first entry of a higher address. -/
def Memory.place : Memory → Nat → Word → Memory
  | [], a, v => [(a, v)]
  | (k, u) :: rest, a, v => if a < k then (a, v) :: (k, u) :: rest else (k, u) :: Memory.place rest a v

/-- R15 `MemRead(a)`: one whole cell, no side effect (R53). -/
def Memory.read (m : Memory) (a : Addr) : Word := Memory.cellAt m a.toNat

/-- R15 `MemWrite(a, v)`: one whole cell (R53); every cell may be written (R54). The canonical form is kept: a cell with
the value that unlisted cells read as is not listed (log 5). -/
def Memory.write (m : Memory) (a : Addr) (v : Word) : Memory :=
  if v = unlistedCell then Memory.without m a.toNat else Memory.place (Memory.without m a.toNat) a.toNat v

/-- R184: store a word to memory. -/
def State.store (s : State) (a : Addr) (v : Word) : State := { s with mem := s.mem.write a v }

/-- R211: the word at pc, read from memory directly; no cache access, no event (R55). -/
def State.fetch (s : State) : Word := s.mem.read s.pc

end Sys2Proof.Machine
end

