-- ==== Sys2Proof/Machine/Operands.lean ====
section
/-! DEFINITION. The operand forms: the extended immediate (R85), the effective address (R180), branch and jump targets
(R24, R166, R185) and the link value (R202). -/

namespace Sys2Proof.Machine

/-- R15, R85: the 7-bit immediate with bit 6 propagated into bits 15 to 7. -/
def sext7 (imm : Imm) : Word := imm.signExtend 16

/-- R52, R231: a 16-bit value reduced modulo 8192. -/
def toAddr (v : Word) : Addr := v.setWidth 13

/-- R180: the effective address of lw and sw, (x[ra] + sext7(imm)) mod 8192. -/
def State.effAddr (s : State) (ra : Reg) (imm : Imm) : Addr := toAddr (s.reg ra + sext7 imm)

/-- R185: the target of a taken branch, (pc + 1 + sext7(imm)) mod 8192. -/
def State.branchTarget (s : State) (imm : Imm) : Addr := s.nextPc + toAddr (sext7 imm)

/-- R202: the value jal links, zext16(pc) + 1, not reduced modulo 8192 (the spec's decision D6; log 18). -/
def State.linkValue (s : State) : Word := s.pc.setWidth 16 + 1

/-- R202: the link register of jal. -/
def linkReg : Reg := 7

end Sys2Proof.Machine
end

