-- ==== Sys2Proof/Machine/ControlTransfer.lean ====
section
/-! DEFINITION. The control-transfer shape and the halt pattern (44_control_transfer.md, R200 to R203). -/

namespace Sys2Proof.Machine

/-- R203, R212: the halt pattern: opcode 010 and a target equal to pc. Only j halts (the spec's decision D7, C6;
log 26). -/
def isHaltPattern (w : Word) (pc : Addr) : Bool := opcodeOf w == 0b010#3 && targetOf w == pc

/-- R201: `if target = pc then halt else (x[0] <- 0; pc <- target)`. -/
def execJ (target : Addr) (s : State) : Host.Outcome State Fault Refusal :=
  if target = s.pc then .next s.halt else .next (s.retire target)

/-- R202: `x[7] <- zext16(pc) + 1; x[0] <- 0; pc <- target`; it never halts. -/
def execJal (target : Addr) (s : State) : Host.Outcome State Fault Refusal :=
  .next ((s.setReg linkReg s.linkValue).retire target)

end Sys2Proof.Machine
end

