-- ==== Sys2Proof/Machine/CacheEngine.lean ====
section
/-! DEFINITION. One cache level (40_cache_engine.md): aging, matching, victim selection, load access and store access. -/

namespace Sys2Proof.Machine

/-- The classification a load access answers (R113). -/
inductive LoadOutcome where
  | hit
  | miss
  deriving DecidableEq, Repr

/-- R146: a load's outcome as the classification of its log event. -/
def LoadOutcome.classification : LoadOutcome → Classification
  | .hit => .hit
  | .miss => .miss

/-- R114, R119: a block one access older. -/
def Block.aged (b : Block) : Block := { b with recency := b.recency + 1 }

/-- R115: a block matches when it is valid and its tag is the address's tag. -/
def Block.matchesTag (b : Block) (tag : Nat) : Bool := b.valid && b.tag == tag

/-- R115: mark a block most recently used. -/
def Block.refreshed (b : Block) : Block := { b with recency := 0 }

/-- R117, R119: the block a victim becomes. -/
def Block.installed (tag : Nat) : Block := { valid := true, tag := tag, recency := 0 }

/-- R114, R119: every block of the row ages by one, whatever else the access does (C2). -/
def Row.aged (row : Row) : Row := row.map Block.aged

/-- R113: whether some block of the row matches the tag. -/
def Row.holds (row : Row) (tag : Nat) : Bool := row.any (fun b => b.matchesTag tag)

/-- The greatest recency in the row, 0 in an empty one. -/
def Row.maxRecency (row : Row) : Nat := row.foldr (fun b m => max b.recency m) 0

/-- R117: the least index of a block whose recency is the row's greatest. Validity is not consulted. -/
def Row.oldest (row : Row) : Nat := row.findIdx (fun b => b.recency == row.maxRecency)

/-- R119: the least index of an invalid block if the row has one, else the least index of greatest recency (the spec's
decision D10 on the source's wording; log 20). -/
def Row.storeVictim (row : Row) : Nat :=
  if row.any (fun b => !b.valid) then row.findIdx (fun b => !b.valid) else row.oldest

/-- R117, R119: install a tag at an index; an index the row does not have changes nothing (log 21). -/
def Row.install (row : Row) (v : Nat) (tag : Nat) : Row := row.set v (Block.installed tag)

/-- R115: reset the recency of every matching block (the spec's decision D11 where two match; log 22). -/
def Row.refresh (row : Row) (tag : Nat) : Row :=
  row.map (fun b => if b.matchesTag tag then b.refreshed else b)

/-- R113: load access on the row of the address. -/
def Row.load (row : Row) (tag : Nat) : LoadOutcome × Row :=
  if row.aged.holds tag then (.hit, row.aged.refresh tag)
  else (.miss, row.aged.install row.aged.oldest tag)

/-- R118: store access on the row of the address. It looks for no match. -/
def Row.store (row : Row) (tag : Nat) : Row := row.aged.install row.aged.storeVictim tag

/-- The row at an index. A level in its shape has it (R112, R31); where a state no run reaches has not, it reads as an
empty row (log 21). -/
def Cache.row (c : Cache) (r : Nat) : Row := c.rows.getD r []

/-- Replace the row at an index and nothing else (R124). -/
def Cache.setRow (c : Cache) (r : Nat) (row : Row) : Cache := { c with rows := c.rows.set r row }

/-- R113: load access: its classification, its row index, and the level after it. -/
def Cache.loadAccess (c : Cache) (a : Addr) : LoadOutcome × Nat × Cache :=
  let r := c.config.rowOf a
  let (outcome, row) := (c.row r).load (c.config.tagOf a)
  (outcome, r, c.setRow r row)

/-- R118, R120: store access: its row index and the level after it; it is never classified hit or miss. -/
def Cache.storeAccess (c : Cache) (a : Addr) : Nat × Cache :=
  let r := c.config.rowOf a
  (r, c.setRow r ((c.row r).store (c.config.tagOf a)))

end Sys2Proof.Machine
end

