-- ==== Sys2Proof/Machine/Hierarchy.lean ====
section
/-! DEFINITION. The hierarchy coordinator (41_cache_hierarchy.md): one address through L1 and, where there is one, L2,
and the log events of the step. -/

namespace Sys2Proof.Machine

/-- R146: append a log event of the instruction at pc to the stream. -/
def State.emit (s : State) (label : CacheLabel) (c : Classification) (a : Addr) (row : Nat) : State :=
  { s with log := s.log ++ [{ label := label, classification := c, pc := s.pc, address := a, row := row }] }

/-- R142: load access on L1, with its event. -/
def State.loadL1 (s : State) (a : Addr) : LoadOutcome × State :=
  let (outcome, row, c) := s.l1.loadAccess a
  (outcome, { s with l1 := c }.emit .l1 outcome.classification a row)

/-- R142: load access on L2 where it is present, with its event; an absent level is consulted by nobody and leaves the
outcome MISS. -/
def State.loadL2 (s : State) (a : Addr) : LoadOutcome × State :=
  match s.l2 with
  | none => (.miss, s)
  | some c2 =>
    let (outcome, row, c) := c2.loadAccess a
    (outcome, { s with l2 := some c }.emit .l2 outcome.classification a row)

/-- R142 `CacheLoad(a)`: L1 first, L2 only on an L1 miss; the outcome is the overall one of R143. -/
def State.cacheLoad (s : State) (a : Addr) : LoadOutcome × State :=
  match s.loadL1 a with
  | (.hit, s1) => (.hit, s1)
  | (.miss, s1) => s1.loadL2 a

/-- R144: store access on L1, with its event. -/
def State.storeL1 (s : State) (a : Addr) : State :=
  let (row, c) := s.l1.storeAccess a
  { s with l1 := c }.emit .l1 .sw a row

/-- R144: store access on L2 where it is present, with its event. -/
def State.storeL2 (s : State) (a : Addr) : State :=
  match s.l2 with
  | none => s
  | some c2 =>
    let (row, c) := c2.storeAccess a
    { s with l2 := some c }.emit .l2 .sw a row

/-- R144 `CacheStore(a)`: always both levels, L1 first (log 23). -/
def State.cacheStore (s : State) (a : Addr) : State := (s.storeL1 a).storeL2 a

end Sys2Proof.Machine
end

