-- ==== Sys2Proof/Machine/LoadStore.lean ====
section
/-! DEFINITION. Load-word and store-word (43_register_immediate_memory.md, R183, R184, R186). -/

namespace Sys2Proof.Machine

/-- R183: whether a load-word with this overall outcome reads memory: on MISS, or always under LOAD_HIT_READS_MEMORY
(P3, D13; log 25). -/
def State.loadWrites (s : State) (outcome : LoadOutcome) : Bool := outcome == .miss || s.loadHitReadsMemory

/-- R183: the cache hierarchy first, then the memory read and register write where `loadWrites` says so. -/
def State.loadWord (s : State) (rb : Reg) (a : Addr) : State :=
  let (outcome, t) := s.cacheLoad a
  if s.loadWrites outcome then t.setReg rb (t.mem.read a) else t

/-- R184: memory first, whatever the caches hold, then the cache hierarchy. -/
def State.storeWord (s : State) (rb : Reg) (a : Addr) : State := (s.store a (s.reg rb)).cacheStore a

/-- R183: load-word. -/
def execLw (ra rb : Reg) (imm : Imm) (s : State) : Host.Outcome State Fault Refusal :=
  .next ((s.loadWord rb (s.effAddr ra imm)).retire s.nextPc)

/-- R184: store-word. -/
def execSw (ra rb : Reg) (imm : Imm) (s : State) : Host.Outcome State Fault Refusal :=
  .next ((s.storeWord rb (s.effAddr ra imm)).retire s.nextPc)

end Sys2Proof.Machine
end

