-- ==== Sys2Proof/Machine/Flags.lean ====
section
/-! DEFINITION. The machine has no flags and no condition codes (R25): no instruction has a flag to compute. What other
machines put in flags is here a value written to a register: the result of the two set-if-less-than instructions. -/

namespace Sys2Proof.Machine

/-- R165, R182: 1 if the first value is less than the second as unsigned integers, else 0 (R168: both comparisons are
unsigned). That true is 1 and false 0 is the spec's decision D4 (log 19). -/
def setIfLess (a b : Word) : Word := if a.toNat < b.toNat then 1 else 0

end Sys2Proof.Machine
end

