-- ==== Sys2Proof/Machine/RegisterImmediate.lean ====
section
/-! DEFINITION. The register-immediate instructions that touch no memory: addi, slti, jeq (43_register_immediate_memory.md,
R180 to R182, R185). -/

namespace Sys2Proof.Machine

/-- R181: x[rb] <- (x[ra] + sext7(imm)) mod 2^16. -/
def execAddi (ra rb : Reg) (imm : Imm) (s : State) : Host.Outcome State Fault Refusal :=
  .next ((s.setReg rb (s.reg ra + sext7 imm)).retire s.nextPc)

/-- R182: x[rb] <- 1 if x[ra] < sext7(imm), both as unsigned 16-bit values, else 0. -/
def execSlti (ra rb : Reg) (imm : Imm) (s : State) : Host.Outcome State Fault Refusal :=
  .next ((s.setReg rb (setIfLess (s.reg ra) (sext7 imm))).retire s.nextPc)

/-- R185: to pc + 1 + sext7(imm) when the two registers are equal in all 16 bits, else to pc + 1. -/
def execJeq (ra rb : Reg) (imm : Imm) (s : State) : Host.Outcome State Fault Refusal :=
  .next (s.retire (if s.reg ra = s.reg rb then s.branchTarget imm else s.nextPc))

end Sys2Proof.Machine
end

