-- ==== Sys2Proof/Machine/RegisterRegister.lean ====
section
/-! DEFINITION. The register-register shape with a meaning of its own (42_register_register.md, R160 to R166). Sources
are read in the state the instruction was fetched in, then rd is written, then x[0] is forced to 0 and pc set. -/

namespace Sys2Proof.Machine

/-- R161: x[rd] <- (x[ra] + x[rb]) mod 2^16. -/
def execAdd (ra rb rd : Reg) (s : State) : Host.Outcome State Fault Refusal :=
  .next ((s.setReg rd (s.reg ra + s.reg rb)).retire s.nextPc)

/-- R162: x[rd] <- (x[ra] - x[rb]) mod 2^16; the operand order is the spec's decision D4 (log 19). -/
def execSub (ra rb rd : Reg) (s : State) : Host.Outcome State Fault Refusal :=
  .next ((s.setReg rd (s.reg ra - s.reg rb)).retire s.nextPc)

/-- R163: x[rd] <- x[ra] OR x[rb]. -/
def execOr (ra rb rd : Reg) (s : State) : Host.Outcome State Fault Refusal :=
  .next ((s.setReg rd (s.reg ra ||| s.reg rb)).retire s.nextPc)

/-- R164: x[rd] <- x[ra] AND x[rb]. -/
def execAnd (ra rb rd : Reg) (s : State) : Host.Outcome State Fault Refusal :=
  .next ((s.setReg rd (s.reg ra &&& s.reg rb)).retire s.nextPc)

/-- R165: x[rd] <- 1 if x[ra] < x[rb], unsigned, else 0. -/
def execSlt (ra rb rd : Reg) (s : State) : Host.Outcome State Fault Refusal :=
  .next ((s.setReg rd (setIfLess (s.reg ra) (s.reg rb))).retire s.nextPc)

/-- R166: pc <- x[ra] mod 8192; rb and rd are ignored (R89, log 24) and no register but x[0] is written. -/
def execJr (ra _rb _rd : Reg) (s : State) : Host.Outcome State Fault Refusal :=
  .next (s.retire (toAddr (s.reg ra)))

end Sys2Proof.Machine
end

