-- ==== Sys2Proof/Machine/Reserved.lean ====
section
/-! DEFINITION. The ten reserved function codes (R90, R167): no-ops that force x[0] to 0 and advance pc. -/

namespace Sys2Proof.Machine

/-- R167: `x[0] <- 0; pc <- (pc + 1) mod 8192`. -/
def State.noOp (s : State) : State := s.retire s.nextPc

/-- R167: reserved function code 0101. -/
def execReserved0101 (_ra _rb _rd : Reg) (s : State) : Host.Outcome State Fault Refusal := .next s.noOp

/-- R167: reserved function code 0110. -/
def execReserved0110 (_ra _rb _rd : Reg) (s : State) : Host.Outcome State Fault Refusal := .next s.noOp

/-- R167: reserved function code 0111. -/
def execReserved0111 (_ra _rb _rd : Reg) (s : State) : Host.Outcome State Fault Refusal := .next s.noOp

/-- R167: reserved function code 1001. -/
def execReserved1001 (_ra _rb _rd : Reg) (s : State) : Host.Outcome State Fault Refusal := .next s.noOp

/-- R167: reserved function code 1010. -/
def execReserved1010 (_ra _rb _rd : Reg) (s : State) : Host.Outcome State Fault Refusal := .next s.noOp

/-- R167: reserved function code 1011. -/
def execReserved1011 (_ra _rb _rd : Reg) (s : State) : Host.Outcome State Fault Refusal := .next s.noOp

/-- R167: reserved function code 1100. -/
def execReserved1100 (_ra _rb _rd : Reg) (s : State) : Host.Outcome State Fault Refusal := .next s.noOp

/-- R167: reserved function code 1101. -/
def execReserved1101 (_ra _rb _rd : Reg) (s : State) : Host.Outcome State Fault Refusal := .next s.noOp

/-- R167: reserved function code 1110. -/
def execReserved1110 (_ra _rb _rd : Reg) (s : State) : Host.Outcome State Fault Refusal := .next s.noOp

/-- R167: reserved function code 1111. -/
def execReserved1111 (_ra _rb _rd : Reg) (s : State) : Host.Outcome State Fault Refusal := .next s.noOp

end Sys2Proof.Machine
end

