-- ==== Sys2Proof/Machine/Dispatch.lean ====
section
/-! DEFINITION. Dispatch (R213): one arm per instruction, each one call of its meaning. -/

namespace Sys2Proof.Machine

def exec (i : Instr) (s : State) : Host.Outcome State Fault Refusal :=
  match i with
  | .add ra rb rd => Sys2Proof.Machine.execAdd ra rb rd s
  | .sub ra rb rd => Sys2Proof.Machine.execSub ra rb rd s
  | .or ra rb rd => Sys2Proof.Machine.execOr ra rb rd s
  | .and ra rb rd => Sys2Proof.Machine.execAnd ra rb rd s
  | .slt ra rb rd => Sys2Proof.Machine.execSlt ra rb rd s
  | .jr ra rb rd => Sys2Proof.Machine.execJr ra rb rd s
  | .reserved0101 ra rb rd => Sys2Proof.Machine.execReserved0101 ra rb rd s
  | .reserved0110 ra rb rd => Sys2Proof.Machine.execReserved0110 ra rb rd s
  | .reserved0111 ra rb rd => Sys2Proof.Machine.execReserved0111 ra rb rd s
  | .reserved1001 ra rb rd => Sys2Proof.Machine.execReserved1001 ra rb rd s
  | .reserved1010 ra rb rd => Sys2Proof.Machine.execReserved1010 ra rb rd s
  | .reserved1011 ra rb rd => Sys2Proof.Machine.execReserved1011 ra rb rd s
  | .reserved1100 ra rb rd => Sys2Proof.Machine.execReserved1100 ra rb rd s
  | .reserved1101 ra rb rd => Sys2Proof.Machine.execReserved1101 ra rb rd s
  | .reserved1110 ra rb rd => Sys2Proof.Machine.execReserved1110 ra rb rd s
  | .reserved1111 ra rb rd => Sys2Proof.Machine.execReserved1111 ra rb rd s
  | .addi ra rb imm => Sys2Proof.Machine.execAddi ra rb imm s
  | .lw ra rb imm => Sys2Proof.Machine.execLw ra rb imm s
  | .sw ra rb imm => Sys2Proof.Machine.execSw ra rb imm s
  | .jeq ra rb imm => Sys2Proof.Machine.execJeq ra rb imm s
  | .slti ra rb imm => Sys2Proof.Machine.execSlti ra rb imm s
  | .j target => Sys2Proof.Machine.execJ target s
  | .jal target => Sys2Proof.Machine.execJal target s

end Sys2Proof.Machine
end

