-- ==== Sys2Proof/Machine/Step.lean ====
section
/-! DEFINITION. The step function (45_execution_loop.md, R210 to R216). -/

namespace Sys2Proof.Machine

/-- R111: every level of the state has an admitted configuration. -/
def State.configsAdmitted (s : State) : Bool :=
  s.l1.config.admitted && s.l2.all (fun c => c.config.admitted)

/-- R215: one step. A halted machine has none (R216). A configuration that breaks R111 is refused before any step (R9).
Otherwise fetch (R211), the halt check before any dispatch (R212), and the one instruction of the word (R213). -/
def step (s : State) : Host.Outcome State Fault Refusal :=
  if s.halted then .fault .halted
  else if s.configsAdmitted then
    if isHaltPattern s.fetch s.pc then .next s.halt else exec (decode s.fetch) s
  else .refused .cacheConfigNotAdmitted

/-- The host's probe: the state with the word `w` in the cell at pc, as the loader's image would have placed it
(log 14). An instruction is one cell (R80), so `nbits` adds nothing. -/
def State.withFetchWord (s : State) (_nbits w : Nat) : State := s.store s.pc (BitVec.ofNat 16 w)

end Sys2Proof.Machine
end

