-- ==== Sys2Proof/Machine/Launch.lean ====
section
/-! DEFINITION. What the outside hands to a launch (R237, R262): the configuration list and the image. Their text forms
are out of scope (R5). -/

namespace Sys2Proof.Machine

/-- Why a launch never reaches the core; each "before any instruction executes" (R237). -/
inductive LaunchError where
  /-- A configuration list whose length is not 3 or 6 (R237). -/
  | wrongCount
  /-- A level whose configuration breaks R111. -/
  | notAdmitted
  /-- More words than the 8192 cells: "program exceeds memory capacity" (R237). -/
  | imageTooLarge
  deriving DecidableEq, Repr

/-- R262: "either 3 values (single L1: size, associativity, block size) or 6 values (L1 triple followed by L2 triple)",
each admitted by R111. -/
def launchLevels : List Nat → Except LaunchError (CacheConfig × Option CacheConfig)
  | [a, b, c] =>
    let l1 : CacheConfig := { size := a, assoc := b, blockSize := c }
    if l1.admitted then .ok (l1, none) else .error .notAdmitted
  | [a, b, c, d, e, f] =>
    let l1 : CacheConfig := { size := a, assoc := b, blockSize := c }
    let l2 : CacheConfig := { size := d, assoc := e, blockSize := f }
    if l1.admitted && l2.admitted then .ok (l1, some l2) else .error .notAdmitted
  | _ => .error .wrongCount

/-- The cells of a listing from an address on, without those that unlisted cells already read as. -/
def listingFrom (a : Nat) : List Word → Memory
  | [] => []
  | w :: ws => if w = unlistedCell then listingFrom (a + 1) ws else (a, w) :: listingFrom (a + 1) ws

/-- R38, R262: the image of a program listing, whose cells stand at addresses 0, 1, 2 and so on; cells it does not
mention are `unlistedCell`. -/
def imageOf (ws : List Word) : Except LaunchError Memory :=
  if ws.length ≤ 8192 then .ok (listingFrom 0 ws) else .error .imageTooLarge

end Sys2Proof.Machine
end

