-- ==== Sys2Proof/Safety.lean ====
section
/-! DEFINITION. What the claims say of a state: the invariant every step keeps, and what a safe outcome is. -/

namespace Sys2Proof.Machine

/-- R121: an invalid block carries its row's greatest recency, and a valid block a strictly smaller one. -/
def Row.invalidOldest (row : Row) : Prop :=
  ∀ b ∈ row, b.valid = false → ∀ d ∈ row,
    (d.valid = false → d.recency = b.recency) ∧ (d.valid = true → d.recency < b.recency)

/-- R30, R31, R111, R121: a level as every run holds it: an admitted configuration, numRows rows of assoc blocks, tags
at most 8191, and the relation of R121 in every row. -/
structure Cache.Inv (c : Cache) : Prop where
  admitted : c.config.admitted = true
  rowCount : c.rows.length = c.config.numRows
  blockCount : ∀ row ∈ c.rows, row.length = c.config.assoc
  tagBound : ∀ row ∈ c.rows, ∀ b ∈ row, b.tag ≤ 8191
  invalidOldest : ∀ row ∈ c.rows, row.invalidOldest

/-- What every state of every run satisfies: memory in its canonical form (log 5), register 0 zero (R21), and every level
as `Cache.Inv` says. -/
structure State.Inv (s : State) : Prop where
  memory : s.mem.wf
  zero : s.reg 0 = 0
  l1 : s.l1.Inv
  l2 : ∀ c, s.l2 = some c → c.Inv

/-- R217: at most n steps, stopping at the first fault or refusal. It is the host's run of the core, on `State` itself. -/
def run : Nat → State → Host.Outcome State Fault Refusal
  | 0, s => .next s
  | n + 1, s =>
    match step s with
    | .next t => run n t
    | .fault f => .fault f
    | .refused r => .refused r

/-- R9, R215, R216: an outcome a run of this hardware may have: a next state, or the end of a halted machine. -/
def safeOutcome : Host.Outcome State Fault Refusal → Prop
  | .next _ => True
  | .fault .halted => True
  | .refused _ => False

/-- R32: two states that a program cannot tell apart when LOAD_HIT_READS_MEMORY is set: equal but for the caches' blocks
and configurations and the log-event stream. -/
structure State.SameProgramView (s t : State) : Prop where
  regs : s.regs = t.regs
  pc : s.pc = t.pc
  mem : s.mem = t.mem
  halted : s.halted = t.halted
  setting : s.loadHitReadsMemory = t.loadHitReadsMemory

/-- Outcomes that a program cannot tell apart (R32): next states alike in its view, or the same kind of end. -/
def sameProgramOutcome : Host.Outcome State Fault Refusal → Host.Outcome State Fault Refusal → Prop
  | .next s, .next t => s.SameProgramView t
  | .fault f, .fault g => f = g
  | .refused q, .refused r => q = r
  | _, _ => False

/-- The frame of an instruction that touches neither memory nor caches: x[0] reads 0, every register but the named ones
is as before, every cell of memory reads as before, and caches, log, run status and launch setting are as before. The
program counter may change. -/
structure State.RegisterFrame (s t : State) (written : List Reg) : Prop where
  zero : t.reg 0 = 0
  regs : ∀ r, r ≠ 0 → r ∉ written → t.reg r = s.reg r
  mem : ∀ a, t.mem.read a = s.mem.read a
  l1 : t.l1 = s.l1
  l2 : t.l2 = s.l2
  log : t.log = s.log
  halted : t.halted = s.halted
  setting : t.loadHitReadsMemory = s.loadHitReadsMemory

/-- The outcomes of successive load accesses to one row, and the row after them (R122). -/
def Row.loadAll (row : Row) : List Nat → List LoadOutcome × Row
  | [] => ([], row)
  | tag :: tags =>
    let rest := Row.loadAll (row.load tag).2 tags
    ((row.load tag).1 :: rest.1, rest.2)

/-- What a block keeps under every access (R61, R124): a valid bit that was set stays set. -/
def Row.KeepsValid (before after : Row) : Prop :=
  ∀ (k : Nat) (b : Block), before[k]? = some b → ∃ d : Block, after[k]? = some d ∧ (b.valid = true → d.valid = true)

/-- Every valid bit of a level that was set stays set. -/
def Cache.KeepsValid (before after : Cache) : Prop :=
  ∀ (r : Nat) (row : Row), before.rows[r]? = some row → ∃ row' : Row, after.rows[r]? = some row' ∧ row.KeepsValid row'

/-- What one access to a row may write (R124): no block is added or removed, and all but at most one block keep their
valid bit and tag. -/
def Row.OneBlockRetagged (before after : Row) : Prop :=
  after.length = before.length ∧
    ∃ v : Nat, ∀ (k : Nat) (b : Block), k ≠ v → before[k]? = some b →
      ∃ d : Block, after[k]? = some d ∧ d.valid = b.valid ∧ d.tag = b.tag

end Sys2Proof.Machine
end

