-- ==== Sys2Proof/WellFormed.lean ====
section
/-! DEFINITION. Which terms stand for something the hardware has: instructions, launch parameters and images. -/

namespace Sys2Proof

/-- Every instruction term is well formed: each field's type holds exactly the values its encoding field admits (R82 to
R84), every combination is a word (R89), and no encoding is illegal (R90). -/
def Instr.wellFormed (i : Instr) : Bool :=
  match i with
  | .add _ _ _ | .sub _ _ _ | .or _ _ _ | .and _ _ _ | .slt _ _ _ | .jr _ _ _ => true
  | .reserved0101 _ _ _ | .reserved0110 _ _ _ | .reserved0111 _ _ _ | .reserved1001 _ _ _ | .reserved1010 _ _ _ => true
  | .reserved1011 _ _ _ | .reserved1100 _ _ _ | .reserved1101 _ _ _ | .reserved1110 _ _ _ | .reserved1111 _ _ _ => true
  | .addi _ _ _ | .lw _ _ _ | .sw _ _ _ | .jeq _ _ _ | .slti _ _ _ => true
  | .j _ | .jal _ => true

/-- R6, R111: the parameters a run may be launched with: every level's configuration is admitted. -/
def Params.wellFormed (p : Params) : Bool := p.l1.admitted && p.l2.all (fun c => c.admitted)

/-- R6, R38: an image is a memory in its canonical form. -/
abbrev Machine.imageWellFormed (image : Machine.Memory) : Prop := image.wf

end Sys2Proof
end

