-- ==== Sys2Proof/Certificates/Slice0/Obligations.lean ====
section
/-! DEFINITION. The statements for the provers. Each docstring names the rule of spec/ it formalises, or, for a choice,
the log entry. -/

open Sys2Proof Sys2Proof.Machine

/-! ## Launch and reset -/

/-- R35 to R39 (their zeros are the spec's derivations and its decision D8, logs 1, 2, 4, 6): the state at launch, for
every setting of the parameters, and reset as the launch the model names (log 8). -/
def Obligations.LaunchStateIsTheResetTable : Prop :=
  (∀ (p : Params) (image : Memory),
    (State.launch p image).pc = 0 ∧
    (∀ r, (State.launch p image).reg r = 0) ∧
    (∀ a, (State.launch p image).mem.read a = image.read a) ∧
    (State.launch p image).l1.config = p.l1 ∧
    (State.launch p image).l1.rows.length = p.l1.numRows ∧
    (∀ row ∈ (State.launch p image).l1.rows, row.length = p.l1.assoc ∧
      ∀ b ∈ row, b.valid = false ∧ b.recency = 0 ∧ b.tag = 0) ∧
    ((State.launch p image).l2 = none ↔ p.l2 = none) ∧
    (∀ c2, p.l2 = some c2 → ∃ c, (State.launch p image).l2 = some c ∧ c.config = c2 ∧ c.rows.length = c2.numRows ∧
      ∀ row ∈ c.rows, row.length = c2.assoc ∧ ∀ b ∈ row, b.valid = false ∧ b.recency = 0 ∧ b.tag = 0) ∧
    (State.launch p image).loadHitReadsMemory = p.loadHitReadsMemory) ∧
  State.reset = State.launch { l1 := ⟨4, 1, 1⟩, l2 := none, loadHitReadsMemory := false } []

/-- R40: not halted, no event, at every launch and at reset. -/
def Obligations.NothingHasHappenedAtReset : Prop :=
  (∀ (p : Params) (image : Memory), (State.launch p image).halted = false ∧ (State.launch p image).log = []) ∧
  State.reset.halted = false ∧ State.reset.log = []

/-- R38, R262 (zero for cells the listing omits is decision D8, log 4): the image of a listing is canonical and its cell
a is the listing's word a, or 0 beyond it; a listing that does not fit is refused (R237). -/
def Obligations.ImageHoldsTheListing : Prop :=
  ∀ ws : List Word,
    (ws.length ≤ 8192 → ∃ m, imageOf ws = .ok m ∧ imageWellFormed m ∧ ∀ a : Addr, m.read a = ws.getD a.toNat 0) ∧
    (8192 < ws.length → imageOf ws = .error .imageTooLarge)

/-- R237, R262, R111: a configuration list is taken only with 3 or 6 values that make admitted levels. -/
def Obligations.LaunchTakesOneOrTwoAdmittedLevels : Prop :=
  ∀ (values : List Nat) (l1 : CacheConfig) (l2 : Option CacheConfig),
    launchLevels values = .ok (l1, l2) ↔
      (values = [l1.size, l1.assoc, l1.blockSize] ∧ l2 = none ∧ l1.admitted = true) ∨
      (∃ c, l2 = some c ∧ values = [l1.size, l1.assoc, l1.blockSize, c.size, c.assoc, c.blockSize] ∧
        l1.admitted = true ∧ c.admitted = true)

/-! ## Encoding -/

/-- Words written out from spec/95_test_vectors.md, section 2.2, with the instruction each stands for. The numbers rest
on decisions D1 and D2 (logs 15, 16). -/
def Obligations.SampleWordsDecode : Prop :=
  decode 0b0001011100110100 = .slt 5 6 3 ∧
  decode 0b0001110000001000 = .jr 7 0 0 ∧
  decode 0b0011101011000000 = .addi 6 5 0b1000000 ∧
  decode 0b0101001000110100 = .j 4660 ∧
  decode 0b0111111111111111 = .jal 8191 ∧
  decode 0b1000110101111111 = .lw 3 2 0b1111111 ∧
  decode 0b1010010010000011 = .sw 1 1 3 ∧
  decode 0b1100010101111111 = .jeq 1 2 0b1111111 ∧
  decode 0b1111111111111111 = .slti 7 7 0b1111111 ∧
  decode 0b0001111111111111 = .reserved1111 7 7 7

/-- R82 to R89: decoding the word of an instruction gives it back, for every instruction and every field value. -/
def Obligations.DecodeEncodeAgree : Prop :=
  ∀ i : Instr, i.wellFormed = true → decode (encode i) = i

/-- R89: every word is the word of the instruction it decodes to: the decoder is total and loses no bit. -/
def Obligations.EncodeDecodeAgree : Prop :=
  ∀ w : Word, encode (decode w) = w ∧ (decode w).wellFormed = true

/-- R87, R88 (values: decision D1, log 15; positions: D2, log 16): the opcode and the function code select the
instruction, and its fields are the word's. -/
def Obligations.OpcodeMapSelects : Prop :=
  ∀ w : Word,
    let ra : Reg := w.extractLsb' 10 3
    let rb : Reg := w.extractLsb' 7 3
    let rd : Reg := w.extractLsb' 4 3
    let imm : Imm := w.extractLsb' 0 7
    let target : Addr := w.extractLsb' 0 13
    (w.extractLsb' 13 3 = 0b001#3 → decode w = .addi ra rb imm) ∧
    (w.extractLsb' 13 3 = 0b010#3 → decode w = .j target) ∧
    (w.extractLsb' 13 3 = 0b011#3 → decode w = .jal target) ∧
    (w.extractLsb' 13 3 = 0b100#3 → decode w = .lw ra rb imm) ∧
    (w.extractLsb' 13 3 = 0b101#3 → decode w = .sw ra rb imm) ∧
    (w.extractLsb' 13 3 = 0b110#3 → decode w = .jeq ra rb imm) ∧
    (w.extractLsb' 13 3 = 0b111#3 → decode w = .slti ra rb imm) ∧
    (w.extractLsb' 13 3 = 0b000#3 →
      (w.extractLsb' 0 4 = 0b0000#4 → decode w = .add ra rb rd) ∧
      (w.extractLsb' 0 4 = 0b0001#4 → decode w = .sub ra rb rd) ∧
      (w.extractLsb' 0 4 = 0b0010#4 → decode w = .or ra rb rd) ∧
      (w.extractLsb' 0 4 = 0b0011#4 → decode w = .and ra rb rd) ∧
      (w.extractLsb' 0 4 = 0b0100#4 → decode w = .slt ra rb rd) ∧
      (w.extractLsb' 0 4 = 0b1000#4 → decode w = .jr ra rb rd) ∧
      (w.extractLsb' 0 4 = 0b0101#4 → decode w = .reserved0101 ra rb rd) ∧
      (w.extractLsb' 0 4 = 0b0110#4 → decode w = .reserved0110 ra rb rd) ∧
      (w.extractLsb' 0 4 = 0b0111#4 → decode w = .reserved0111 ra rb rd) ∧
      (w.extractLsb' 0 4 = 0b1001#4 → decode w = .reserved1001 ra rb rd) ∧
      (w.extractLsb' 0 4 = 0b1010#4 → decode w = .reserved1010 ra rb rd) ∧
      (w.extractLsb' 0 4 = 0b1011#4 → decode w = .reserved1011 ra rb rd) ∧
      (w.extractLsb' 0 4 = 0b1100#4 → decode w = .reserved1100 ra rb rd) ∧
      (w.extractLsb' 0 4 = 0b1101#4 → decode w = .reserved1101 ra rb rd) ∧
      (w.extractLsb' 0 4 = 0b1110#4 → decode w = .reserved1110 ra rb rd) ∧
      (w.extractLsb' 0 4 = 0b1111#4 → decode w = .reserved1111 ra rb rd))

/-- R80, R90: the numeric decoder reads every one-cell number as its instruction and rejects every longer one (the
numeric form is the model's, log 17). -/
def Obligations.NumericDecoderTakesOneCell : Prop :=
  (∀ i : Instr, decodeTableWord 16 (encode i).toNat = some i) ∧
  (∀ nbits w : Nat, decodeTableWord nbits w = none ↔ 16 < nbits ∨ 65536 ≤ w)

/-! ## The step -/

/-- R213, R215: where the word at pc decodes to an instruction, the step is that instruction's meaning and nothing more:
the halt check agrees with the meaning of j, so it adds nothing around it. -/
def Obligations.StepRunsTheDecodedInstruction : Prop :=
  ∀ (s : State) (i : Instr), s.halted = false → s.configsAdmitted = true → i.wellFormed = true →
    decode s.fetch = i → step s = exec i s

/-- R212: the halt check, made before any dispatch. -/
def Obligations.HaltCheckPrecedesDispatch : Prop :=
  ∀ s : State, s.halted = false → s.configsAdmitted = true →
    let w := s.mem.read s.pc
    if w.extractLsb' 13 3 = 0b010#3 ∧ w.extractLsb' 0 13 = s.pc then step s = .next { s with halted := true }
    else step s = exec (decode w) s

/-- R215: the step is total where it is defined: it halts with nothing else changed, or it is the whole of one dispatched
instruction, which forces x[0] to 0. It never faults, is never refused and is never stuck. -/
def Obligations.StepIsTotal : Prop :=
  ∀ s : State, s.halted = false → s.configsAdmitted = true →
    let w := s.mem.read s.pc
    ∃ t, step s = .next t ∧
      if w.extractLsb' 13 3 = 0b010#3 ∧ w.extractLsb' 0 13 = s.pc then t = { s with halted := true }
      else exec (decode w) s = .next t ∧ t.reg 0 = 0 ∧ t.halted = false

/-- R214: every dispatched instruction leaves x[0] at 0; the halt step changes nothing but the run status, and in a state
of the invariant x[0] is 0 there already. -/
def Obligations.RegisterZeroForcedByEveryDispatch : Prop :=
  (∀ (i : Instr) (s t : State), i ≠ .j s.pc → exec i s = .next t → t.reg 0 = 0) ∧
  (∀ s t : State, step s = .next t → decode s.fetch ≠ .j s.pc → t.reg 0 = 0) ∧
  (∀ s t : State, step s = .next t → decode s.fetch = .j s.pc →
    t = { s with halted := true } ∧ (s.Inv → t.reg 0 = 0))

/-- R33: false at reset, set by the step that finds the halt pattern and by no other, never cleared, and final. -/
def Obligations.RunStatusLifecycle : Prop :=
  (∀ (p : Params) (image : Memory), (State.launch p image).halted = false) ∧
  (∀ s t : State, step s = .next t → (t.halted = true ↔ decode s.fetch = .j s.pc)) ∧
  (∀ s t : State, s.halted = true → step s ≠ .next t)

/-- R9, R111 (the refusal is decision D12, log 12): a state with a configuration that breaks R111 takes no step. -/
def Obligations.BadConfigurationIsRefused : Prop :=
  (∀ c : CacheConfig, c.admitted = true ↔
    1 ≤ c.size ∧ 1 ≤ c.assoc ∧ 1 ≤ c.blockSize ∧ c.assoc * c.blockSize ∣ c.size) ∧
  (∀ s : State, s.configsAdmitted = true ↔
    s.l1.config.admitted = true ∧ ∀ c, s.l2 = some c → c.config.admitted = true) ∧
  (∀ s : State, s.halted = false →
    (s.l1.config.admitted = false ∨ ∃ c, s.l2 = some c ∧ c.config.admitted = false) →
    step s = .refused .cacheConfigNotAdmitted)

/-- R24: the program counter after each instruction; its wrap at the top of memory is the spec's derivation. -/
def Obligations.PcAfterEachInstruction : Prop :=
  ∀ (i : Instr) (s t : State), exec i s = .next t →
    t.pc.toNat =
      match i with
      | .jr ra _ _ => (s.reg ra).toNat % 8192
      | .jeq ra rb imm =>
        if s.reg ra = s.reg rb then ((s.pc.toNat + 1 + imm.toInt) % 8192).toNat else (s.pc.toNat + 1) % 8192
      | .j target => target.toNat
      | .jal target => target.toNat
      | _ => (s.pc.toNat + 1) % 8192

/-- R6, R11: no step changes the launch parameters. -/
def Obligations.StepKeepsLaunchParameters : Prop :=
  ∀ s t : State, step s = .next t →
    t.l1.config = s.l1.config ∧ t.l2.map Cache.config = s.l2.map Cache.config ∧
    t.loadHitReadsMemory = s.loadHitReadsMemory

/-- R9, R216, R236: a run from any state with admitted configurations never ends but by halting. -/
def Obligations.RunsEndOnlyByHalting : Prop :=
  ∀ (n : Nat) (s : State), s.configsAdmitted = true → safeOutcome (run n s)

/-! ## Invariants -/

/-- The invariant holds at every launch with admitted levels and a canonical image, and at reset. -/
def Obligations.InvariantHoldsAtLaunch : Prop :=
  (∀ (p : Params) (image : Memory), p.wellFormed = true → imageWellFormed image → (State.launch p image).Inv) ∧
  State.reset.Inv

/-- R21, R30, R31, R121 and the canonical form of memory: every step keeps the invariant, from every state. -/
def Obligations.StepKeepsInvariant : Prop :=
  ∀ s t : State, s.Inv → step s = .next t → t.Inv

/-- The canonical form of memory (the model's, log 5): memories that read alike at every address are equal data. -/
def Obligations.CanonicalMemoriesAreEqualWhenTheyReadAlike : Prop :=
  ∀ m k : Memory, m.wf → k.wf → (∀ a, m.read a = k.read a) → m = k

/-- R28, R55, R61, R124: only sw writes memory, and only lw and sw touch the caches or emit events. -/
def Obligations.OnlyLoadsAndStoresTouchMemoryAndCaches : Prop :=
  ∀ (i : Instr) (s t : State), exec i s = .next t →
    ((∀ ra rb imm, i ≠ .sw ra rb imm) → t.mem = s.mem) ∧
    ((∀ ra rb imm, i ≠ .sw ra rb imm) → (∀ ra rb imm, i ≠ .lw ra rb imm) →
      t.l1 = s.l1 ∧ t.l2 = s.l2 ∧ t.log = s.log)

/-! ## Register instructions -/

/-- add, sub and addi: the exact result modulo 65536, with the immediate as sext7 gives it; the order of sub is decision
D4 (log 19). Register 0 as a destination keeps 0. -/
def Obligations.AdditionAndSubtraction : Prop :=
  (∀ (ra rb rd : Reg) (s : State), ∃ t, exec (.add ra rb rd) s = .next t ∧
    (rd ≠ 0 → (t.reg rd).toNat = ((s.reg ra).toNat + (s.reg rb).toNat) % 65536) ∧
    t.pc.toNat = (s.pc.toNat + 1) % 8192 ∧ s.RegisterFrame t [rd]) ∧
  (∀ (ra rb rd : Reg) (s : State), ∃ t, exec (.sub ra rb rd) s = .next t ∧
    (rd ≠ 0 → ((t.reg rd).toNat : Int) = (((s.reg ra).toNat : Int) - (s.reg rb).toNat) % 65536) ∧
    t.pc.toNat = (s.pc.toNat + 1) % 8192 ∧ s.RegisterFrame t [rd]) ∧
  (∀ (ra rb : Reg) (imm : Imm) (s : State), ∃ t, exec (.addi ra rb imm) s = .next t ∧
    (rb ≠ 0 → (t.reg rb).toNat =
      ((s.reg ra).toNat + (if imm.toNat < 64 then imm.toNat else imm.toNat + 65408)) % 65536) ∧
    t.pc.toNat = (s.pc.toNat + 1) % 8192 ∧ s.RegisterFrame t [rb])

/-- or and and: bit by bit over the 16 bits. -/
def Obligations.BitwiseInstructions : Prop :=
  (∀ (ra rb rd : Reg) (s : State), ∃ t, exec (.or ra rb rd) s = .next t ∧
    (rd ≠ 0 → ∀ k, (t.reg rd).getLsbD k = ((s.reg ra).getLsbD k || (s.reg rb).getLsbD k)) ∧
    t.pc.toNat = (s.pc.toNat + 1) % 8192 ∧ s.RegisterFrame t [rd]) ∧
  (∀ (ra rb rd : Reg) (s : State), ∃ t, exec (.and ra rb rd) s = .next t ∧
    (rd ≠ 0 → ∀ k, (t.reg rd).getLsbD k = ((s.reg ra).getLsbD k && (s.reg rb).getLsbD k)) ∧
    t.pc.toNat = (s.pc.toNat + 1) % 8192 ∧ s.RegisterFrame t [rd])

/-- slt and slti: 1 or 0 by an unsigned comparison with the register ra on the left (1, 0 and the order are decision D4,
log 19); slti compares with the sign-extended immediate as an unsigned value. -/
def Obligations.SetIfLessInstructions : Prop :=
  (∀ (ra rb rd : Reg) (s : State), ∃ t, exec (.slt ra rb rd) s = .next t ∧
    (rd ≠ 0 → (t.reg rd).toNat = if (s.reg ra).toNat < (s.reg rb).toNat then 1 else 0) ∧
    t.pc.toNat = (s.pc.toNat + 1) % 8192 ∧ s.RegisterFrame t [rd]) ∧
  (∀ (ra rb : Reg) (imm : Imm) (s : State), ∃ t, exec (.slti ra rb imm) s = .next t ∧
    (rb ≠ 0 → (t.reg rb).toNat =
      if (s.reg ra).toNat < (if imm.toNat < 64 then imm.toNat else imm.toNat + 65408) then 1 else 0) ∧
    t.pc.toNat = (s.pc.toNat + 1) % 8192 ∧ s.RegisterFrame t [rb])

/-- The ten reserved function codes: no-ops that advance pc, whatever their ignored fields hold (which codes are reserved
is decision D1, log 15). -/
def Obligations.ReservedFunctionCodesAreNoOps : Prop :=
  ∀ (ra rb rd : Reg) (s : State),
    ∀ i ∈ [Instr.reserved0101 ra rb rd, .reserved0110 ra rb rd, .reserved0111 ra rb rd, .reserved1001 ra rb rd,
      .reserved1010 ra rb rd, .reserved1011 ra rb rd, .reserved1100 ra rb rd, .reserved1101 ra rb rd,
      .reserved1110 ra rb rd, .reserved1111 ra rb rd],
    ∃ t, exec i s = .next t ∧ t.pc.toNat = (s.pc.toNat + 1) % 8192 ∧ s.RegisterFrame t []

/-! ## Control transfer -/

/-- jr: to the register's value modulo 8192, no link; rb and rd are ignored (decision D3, log 24). -/
def Obligations.JumpToRegister : Prop :=
  ∀ (ra rb rd : Reg) (s : State), ∃ t, exec (.jr ra rb rd) s = .next t ∧
    t.pc.toNat = (s.reg ra).toNat % 8192 ∧ s.RegisterFrame t []

/-- jeq: relative to pc + 1 when all 16 bits are equal, else to pc + 1; no register but x[0] is written. -/
def Obligations.BranchIfEqual : Prop :=
  ∀ (ra rb : Reg) (imm : Imm) (s : State), ∃ t, exec (.jeq ra rb imm) s = .next t ∧
    (t.pc.toNat : Int) =
      (if s.reg ra = s.reg rb then (s.pc.toNat : Int) + 1 + imm.toInt else (s.pc.toNat : Int) + 1) % 8192 ∧
    s.RegisterFrame t []

/-- j: to the target, or, where the target is its own address, halt with nothing else changed. -/
def Obligations.UnconditionalJump : Prop :=
  ∀ (target : Addr) (s : State),
    (target ≠ s.pc → ∃ t, exec (.j target) s = .next t ∧ t.pc = target ∧ s.RegisterFrame t []) ∧
    (target = s.pc → exec (.j target) s = .next { s with halted := true })

/-- jal: links pc + 1 as a 16-bit value (8192 at the top of memory: decision D6, log 18) in register 7 and jumps; it does
not halt, even to its own address (decision D7, log 26). -/
def Obligations.JumpAndLink : Prop :=
  ∀ (target : Addr) (s : State), ∃ t, exec (.jal target) s = .next t ∧
    (t.reg 7).toNat = s.pc.toNat + 1 ∧ t.pc = target ∧ s.RegisterFrame t [7]

/-! ## Load-word, store-word and the hierarchy -/

/-- The effective address is the base plus the signed immediate reduced modulo 8192, whether or not the sum is first
wrapped to 16 bits. -/
def Obligations.EffectiveAddress : Prop :=
  ∀ (ra : Reg) (imm : Imm) (s : State),
    ((s.effAddr ra imm).toNat : Int) = (((s.reg ra).toNat : Int) + imm.toInt) % 8192 ∧
    (s.effAddr ra imm).toNat =
      ((s.reg ra).toNat + (if imm.toNat < 64 then imm.toNat else imm.toNat + 65408)) % 65536 % 8192

/-- lw: the register takes the cell's value on an overall MISS, or always under LOAD_HIT_READS_MEMORY (parameter P3,
decision D13, log 25), else it keeps its own; the caches and the log are as the hierarchy leaves them; everything else
is as before. -/
def Obligations.LoadWord : Prop :=
  ∀ (ra rb : Reg) (imm : Imm) (s : State),
    let a := s.effAddr ra imm
    let after := (s.cacheLoad a).2
    ∃ t, exec (.lw ra rb imm) s = .next t ∧
      (rb ≠ 0 → t.reg rb =
        if (s.cacheLoad a).1 = .miss ∨ s.loadHitReadsMemory = true then s.mem.read a else s.reg rb) ∧
      t.reg 0 = 0 ∧ (∀ r, r ≠ 0 → r ≠ rb → t.reg r = s.reg r) ∧
      t.pc.toNat = (s.pc.toNat + 1) % 8192 ∧ (∀ b, t.mem.read b = s.mem.read b) ∧
      t.l1 = after.l1 ∧ t.l2 = after.l2 ∧ t.log = after.log ∧
      t.halted = s.halted ∧ t.loadHitReadsMemory = s.loadHitReadsMemory

/-- sw: the cell at the effective address takes the register's value, whatever the caches hold, and no other cell changes;
the caches and the log are as the hierarchy leaves them; no register but x[0] is written. -/
def Obligations.StoreWord : Prop :=
  ∀ (ra rb : Reg) (imm : Imm) (s : State),
    let a := s.effAddr ra imm
    let after := s.cacheStore a
    ∃ t, exec (.sw ra rb imm) s = .next t ∧
      t.mem.read a = s.reg rb ∧ (∀ b, b ≠ a → t.mem.read b = s.mem.read b) ∧
      t.reg 0 = 0 ∧ (∀ r, r ≠ 0 → t.reg r = s.reg r) ∧
      t.pc.toNat = (s.pc.toNat + 1) % 8192 ∧
      t.l1 = after.l1 ∧ t.l2 = after.l2 ∧ t.log = after.log ∧
      t.halted = s.halted ∧ t.loadHitReadsMemory = s.loadHitReadsMemory

/-- R142: the load of an address through the hierarchy: L1 with its event, and L2 with its event exactly where L1 missed
and L2 is present; nothing else changes. -/
def Obligations.CacheLoadThroughTheHierarchy : Prop :=
  ∀ (s : State) (a : Addr),
    let (c1, r1, l1) := s.l1.loadAccess a
    let e1 : LogEvent := ⟨.l1, c1.classification, s.pc, a, r1⟩
    match c1, s.l2 with
    | .hit, _ => s.cacheLoad a = (.hit, { s with l1 := l1, log := s.log ++ [e1] })
    | .miss, none => s.cacheLoad a = (.miss, { s with l1 := l1, log := s.log ++ [e1] })
    | .miss, some c =>
      let (c2, r2, l2) := c.loadAccess a
      s.cacheLoad a = (c2, { s with l1 := l1, l2 := some l2, log := s.log ++ [e1, ⟨.l2, c2.classification, s.pc, a, r2⟩] })

/-- R143: the overall outcome of a load. -/
def Obligations.OverallOutcomeOfALoad : Prop :=
  ∀ (s : State) (a : Addr),
    ((s.cacheLoad a).1 = .hit ↔
      (s.l1.loadAccess a).1 = .hit ∨ ∃ c, s.l2 = some c ∧ (c.loadAccess a).1 = .hit) ∧
    ((s.cacheLoad a).1 = .miss ↔
      (s.l1.loadAccess a).1 = .miss ∧ ∀ c, s.l2 = some c → (c.loadAccess a).1 = .miss)

/-- R144: the store of an address through the hierarchy: always L1, and L2 where present, each with its SW event (that
L1 comes first is the spec's derivation, log 23). -/
def Obligations.CacheStoreThroughTheHierarchy : Prop :=
  ∀ (s : State) (a : Addr),
    let (r1, l1) := s.l1.storeAccess a
    let e1 : LogEvent := ⟨.l1, .sw, s.pc, a, r1⟩
    match s.l2 with
    | none => s.cacheStore a = { s with l1 := l1, log := s.log ++ [e1] }
    | some c =>
      let (r2, l2) := c.storeAccess a
      s.cacheStore a = { s with l1 := l1, l2 := some l2, log := s.log ++ [e1, ⟨.l2, .sw, s.pc, a, r2⟩] }

/-- R145: the levels an instruction's events name, in order: one event per level touched. -/
def Obligations.EventsPerInstruction : Prop :=
  ∀ (i : Instr) (s t : State), exec i s = .next t →
    ∃ events : List LogEvent, t.log = s.log ++ events ∧
      events.map LogEvent.label =
        match i with
        | .lw ra _ imm =>
          if (s.l1.loadAccess (s.effAddr ra imm)).1 = .hit ∨ s.l2 = none then [.l1] else [.l1, .l2]
        | .sw _ _ _ => if s.l2 = none then [.l1] else [.l1, .l2]
        | _ => []

/-- R146: the fields of every event an instruction emits. -/
def Obligations.EventFields : Prop :=
  ∀ (i : Instr) (s t : State), exec i s = .next t →
    ∃ events : List LogEvent, t.log = s.log ++ events ∧
      ∀ e ∈ events, e.pc = s.pc ∧
        ((∃ ra rb imm, i = .lw ra rb imm ∧ e.address = s.effAddr ra imm ∧ e.classification ≠ .sw) ∨
          (∃ ra rb imm, i = .sw ra rb imm ∧ e.address = s.effAddr ra imm ∧ e.classification = .sw)) ∧
        (e.label = .l1 → e.row = s.l1.config.rowOf e.address) ∧
        (e.label = .l2 → ∃ c, s.l2 = some c ∧ e.row = c.config.rowOf e.address)

/-- R60: the fetch after a store sees it, a store to the very next instruction included. -/
def Obligations.NextFetchSeesTheStore : Prop :=
  ∀ (s : State) (ra rb : Reg) (imm : Imm), s.halted = false → s.configsAdmitted = true →
    decode s.fetch = .sw ra rb imm →
    ∃ t, step s = .next t ∧
      t.fetch = if s.effAddr ra imm = s.pc + 1 then s.reg rb else s.mem.read (s.pc + 1)

/-- R147, R265 (derived there): under the literal setting a load right after a store to its address hits L1 and leaves
its register as it was. -/
def Obligations.LiteralLoadAfterStoreKeepsTheRegister : Prop :=
  ∀ (s t : State) (ra rb ra' rb' : Reg) (imm imm' : Imm),
    s.Inv → s.loadHitReadsMemory = false → exec (.sw ra rb imm) s = .next t →
    t.effAddr ra' imm' = s.effAddr ra imm →
    ∃ u, exec (.lw ra' rb' imm') t = .next u ∧ u.reg rb' = t.reg rb' ∧
      u.log = t.log ++ [⟨.l1, .hit, t.pc, s.effAddr ra imm, s.l1.config.rowOf (s.effAddr ra imm)⟩]

/-- R57, R183: under the corrected setting a load right after a store to its address returns the stored value. -/
def Obligations.CorrectedLoadAfterStoreReturnsTheValue : Prop :=
  ∀ (s t : State) (ra rb ra' rb' : Reg) (imm imm' : Imm),
    s.loadHitReadsMemory = true → exec (.sw ra rb imm) s = .next t →
    t.effAddr ra' imm' = s.effAddr ra imm → rb' ≠ 0 →
    ∃ u, exec (.lw ra' rb' imm') t = .next u ∧ u.reg rb' = s.reg rb

/-- R32 (derived there): under LOAD_HIT_READS_MEMORY, registers, memory, pc and halting do not depend on the caches: two
runs of any length from states alike but for their caches and logs stay alike. -/
def Obligations.CorrectedRunsDoNotDependOnTheCaches : Prop :=
  ∀ (n : Nat) (s t : State), s.SameProgramView t → s.loadHitReadsMemory = true →
    s.configsAdmitted = true → t.configsAdmitted = true →
    sameProgramOutcome (run n s) (run n t)

/-! ## One cache level -/

/-- R111 (its lower bounds are the spec's decision D12, log 12): the number of rows of an admitted configuration; that the
rows use up the size exactly is an inference from it. R112: the split of an address under such a configuration. -/
def Obligations.AddressDecomposition : Prop :=
  (∀ c : CacheConfig, c.admitted = true →
    c.numRows = c.size / (c.assoc * c.blockSize) ∧ c.numRows * (c.assoc * c.blockSize) = c.size ∧ 1 ≤ c.numRows) ∧
  (∀ c : CacheConfig, c.admitted = true → ∀ a : Addr,
    c.blockNumber a = a.toNat / c.blockSize ∧
    c.rowOf a = a.toNat / c.blockSize % c.numRows ∧ c.tagOf a = a.toNat / c.blockSize / c.numRows ∧
    c.rowOf a < c.numRows ∧ c.tagOf a ≤ 8191 ∧
    ∀ b : Addr, (c.rowOf a = c.rowOf b ∧ c.tagOf a = c.tagOf b) ↔
      a.toNat / c.blockSize = b.toNat / c.blockSize) ∧
  (let c : CacheConfig := ⟨4, 1, 1⟩
   c.numRows = 4 ∧ c.blockNumber 4 = 4 ∧ c.tagOf 4 = 1 ∧ c.rowOf 4 = 0 ∧ c.tagOf 0 = 0 ∧ c.rowOf 0 = 0)

/-- R114 to R116 (that all matching blocks are reset is decision D11, log 22): a load access that matches a valid block
of the row is a HIT; matching blocks end at recency 0, every other block is one older, nothing else changes. -/
def Obligations.LoadHit : Prop :=
  ∀ (row : Row) (tag : Nat), (∃ b ∈ row, b.valid = true ∧ b.tag = tag) →
    (row.load tag).1 = .hit ∧ (row.load tag).2.length = row.length ∧
    ∀ (k : Nat) (b : Block), row[k]? = some b →
      (row.load tag).2[k]? =
        some (if b.valid = true ∧ b.tag = tag then { b with recency := 0 } else { b with recency := b.recency + 1 })

/-- R117: a load access that matches no block is a MISS; the victim is the lowest-indexed block of greatest recency,
valid or not; it takes the tag, and every other block is one older. -/
def Obligations.LoadMiss : Prop :=
  ∀ (row : Row) (tag : Nat), row ≠ [] → (∀ b ∈ row, ¬ (b.valid = true ∧ b.tag = tag)) →
    (row.load tag).1 = .miss ∧ (row.load tag).2.length = row.length ∧
    ∃ (v : Nat) (old : Block), row[v]? = some old ∧
      (∀ b ∈ row, b.recency ≤ old.recency) ∧
      (∀ (k : Nat) (b : Block), k < v → row[k]? = some b → b.recency < old.recency) ∧
      (row.load tag).2[v]? = some ⟨true, tag, 0⟩ ∧
      ∀ (k : Nat) (b : Block), k ≠ v → row[k]? = some b →
        (row.load tag).2[k]? = some { b with recency := b.recency + 1 }

/-- R118, R119 (the victim is decision D10, log 20): a store access installs its tag, matching or not, in the
lowest-indexed invalid block, or where all are valid in the lowest-indexed block of greatest recency; every other block
is one older. -/
def Obligations.StoreInstalls : Prop :=
  ∀ (row : Row) (tag : Nat), row ≠ [] →
    (row.store tag).length = row.length ∧
    ∃ (v : Nat) (old : Block), row[v]? = some old ∧
      ((∃ b ∈ row, b.valid = false) → old.valid = false ∧
        ∀ (k : Nat) (b : Block), k < v → row[k]? = some b → b.valid = true) ∧
      ((∀ b ∈ row, b.valid = true) → (∀ b ∈ row, b.recency ≤ old.recency) ∧
        ∀ (k : Nat) (b : Block), k < v → row[k]? = some b → b.recency < old.recency) ∧
      (row.store tag)[v]? = some ⟨true, tag, 0⟩ ∧
      ∀ (k : Nat) (b : Block), k ≠ v → row[k]? = some b →
        (row.store tag)[k]? = some { b with recency := b.recency + 1 }

/-- R124: a load or store access writes recencies of one row and valid bit and tag of at most one of its blocks; valid
bits are never cleared; the hierarchy leaves registers, pc and memory alone. -/
def Obligations.AnAccessTouchesOneRow : Prop :=
  (∀ (c : Cache) (a : Addr), ∀ after ∈ [(c.loadAccess a).2.2, (c.storeAccess a).2],
    after.config = c.config ∧ after.rows.length = c.rows.length ∧
    (∀ r, r ≠ c.config.rowOf a → after.rows[r]? = c.rows[r]?) ∧
    (∀ row row' : Row, c.rows[c.config.rowOf a]? = some row → after.rows[c.config.rowOf a]? = some row' →
      row.OneBlockRetagged row') ∧
    c.KeepsValid after) ∧
  (∀ (s : State) (a : Addr), ∀ after ∈ [(s.cacheLoad a).2, s.cacheStore a],
    after.regs = s.regs ∧ after.pc = s.pc ∧ after.mem = s.mem ∧ after.halted = s.halted) ∧
  (∀ (i : Instr) (s t : State), (∀ ra rb imm, i ≠ .lw ra rb imm) → (∀ ra rb imm, i ≠ .sw ra rb imm) →
    exec i s = .next t → t.l1 = s.l1 ∧ t.l2 = s.l2)

/-- R61 (derived there): no step of the machine clears a valid bit of either level. -/
def Obligations.ValidBitsAreNeverCleared : Prop :=
  ∀ s t : State, step s = .next t →
    s.l1.KeepsValid t.l1 ∧ ∀ c, s.l2 = some c → ∃ d, t.l2 = some d ∧ c.KeepsValid d

/-- R121 (derived there): in a row as runs hold it, a load miss and a store choose the same victim, and where the row has
an invalid block it is the lowest-indexed invalid one. -/
def Obligations.LoadAndStoreVictimsAgree : Prop :=
  ∀ row : Row, row.invalidOldest →
    row.aged.oldest = row.aged.storeVictim ∧
    ((∃ b ∈ row, b.valid = false) → ∃ b, row[row.aged.oldest]? = some b ∧ b.valid = false ∧
      ∀ (k : Nat) (d : Block), k < row.aged.oldest → row[k]? = some d → d.valid = true)

/-- Section 4 of 40_cache_engine.md, property (a): right after any load of an address, a load of the same block hits. -/
def Obligations.RepeatedLoadHits : Prop :=
  ∀ (c : Cache) (a b : Addr), c.Inv → a.toNat / c.config.blockSize = b.toNat / c.config.blockSize →
    ((c.loadAccess a).2.2.loadAccess b).1 = .hit

/-- Section 4 of 40_cache_engine.md, property (b), the LRU invariant: in a row whose blocks are all valid, after at most
associativity load misses of distinct tags each of those tags hits, and after one more the first of them misses. -/
def Obligations.LruInvariant : Prop :=
  ∀ (row : Row) (tags : List Nat), (∀ b ∈ row, b.valid = true) → tags.Nodup →
    (row.loadAll tags).1 = List.replicate tags.length .miss →
    (tags.length ≤ row.length → ∀ tag ∈ tags, ((row.loadAll tags).2.load tag).1 = .hit) ∧
    (∀ first rest, tags = first :: rest → tags.length = row.length + 1 →
      ((row.loadAll tags).2.load first).1 = .miss)

/-- R113, R118: a load or store access to a level is the load or store of the one row of the address, with the address's
tag: the classification, the row index, and the level after it. It hits exactly where the row has a valid block of that
tag. That every matching block is refreshed and the choice of a store's victim are in the row operations (logs 22, 20). -/
def Obligations.AccessesFollowTheRowOfTheAddress : Prop :=
  ∀ (c : Cache) (a : Addr) (row : Row),
    let r := a.toNat / c.config.blockSize % c.config.numRows
    let tag := a.toNat / c.config.blockSize / c.config.numRows
    c.rows[r]? = some row →
      ((c.loadAccess a).1 = .hit ↔ ∃ b ∈ row, b.valid = true ∧ b.tag = tag) ∧
      c.loadAccess a = ((row.load tag).1, r, { c with rows := c.rows.set r (row.load tag).2 }) ∧
      c.storeAccess a = (r, { c with rows := c.rows.set r (row.store tag) })
end

