-- ==== Sys2Proof/Laws/Row.lean ====
section
/-! SUPPORT. One cache row: aging, matching, the victim an access chooses, and what an access leaves at each index. -/

namespace Sys2Proof.Machine

@[simp] theorem block_aged_valid (b : Block) : b.aged.valid = b.valid := rfl
@[simp] theorem block_aged_tag (b : Block) : b.aged.tag = b.tag := rfl
@[simp] theorem block_aged_recency (b : Block) : b.aged.recency = b.recency + 1 := rfl
@[simp] theorem block_aged_matchesTag (b : Block) (tag : Nat) : b.aged.matchesTag tag = b.matchesTag tag := rfl
@[simp] theorem block_refreshed_valid (b : Block) : b.refreshed.valid = b.valid := rfl
@[simp] theorem block_refreshed_tag (b : Block) : b.refreshed.tag = b.tag := rfl
@[simp] theorem block_refreshed_recency (b : Block) : b.refreshed.recency = 0 := rfl
@[simp] theorem block_installed_valid (tag : Nat) : (Block.installed tag).valid = true := rfl
@[simp] theorem block_installed_tag (tag : Nat) : (Block.installed tag).tag = tag := rfl
@[simp] theorem block_installed_recency (tag : Nat) : (Block.installed tag).recency = 0 := rfl

theorem matchesTag_iff (b : Block) (tag : Nat) : b.matchesTag tag = true ↔ b.valid = true ∧ b.tag = tag := by
  simp [Block.matchesTag]

@[simp] theorem row_aged_length (row : Row) : row.aged.length = row.length := by simp [Row.aged]

@[simp] theorem row_aged_getElem? (row : Row) (k : Nat) : row.aged[k]? = row[k]?.map Block.aged := by
  simp [Row.aged]

theorem mem_row_aged (row : Row) (b : Block) : b ∈ row.aged ↔ ∃ d ∈ row, d.aged = b := by simp [Row.aged]

@[simp] theorem row_refresh_length (row : Row) (tag : Nat) : (row.refresh tag).length = row.length := by
  simp [Row.refresh]

@[simp] theorem row_refresh_getElem? (row : Row) (tag k : Nat) :
    (row.refresh tag)[k]? = row[k]?.map (fun b => if b.matchesTag tag then b.refreshed else b) := by
  simp [Row.refresh]

@[simp] theorem row_install_length (row : Row) (v tag : Nat) : (row.install v tag).length = row.length := by
  simp [Row.install]

theorem row_install_at (row : Row) (v tag : Nat) (h : v < row.length) :
    (row.install v tag)[v]? = some (Block.installed tag) := by
  simp [Row.install, h]

theorem row_install_ne (row : Row) (v tag k : Nat) (h : k ≠ v) : (row.install v tag)[k]? = row[k]? := by
  simp [Row.install, Ne.symm h]

theorem holds_iff (row : Row) (tag : Nat) : row.holds tag = true ↔ ∃ b ∈ row, b.valid = true ∧ b.tag = tag := by
  simp [Row.holds, matchesTag_iff]

@[simp] theorem holds_aged (row : Row) (tag : Nat) : row.aged.holds tag = row.holds tag := by
  simp [Row.holds, Row.aged, List.any_map, Function.comp_def]

/-- A load on a row that holds the tag. -/
theorem load_of_holds (row : Row) (tag : Nat) (h : row.holds tag = true) :
    row.load tag = (.hit, row.aged.refresh tag) := by
  simp [Row.load, h]

/-- A load on a row that does not. -/
theorem load_of_not_holds (row : Row) (tag : Nat) (h : row.holds tag = false) :
    row.load tag = (.miss, row.aged.install row.aged.oldest tag) := by
  simp [Row.load, h]

@[simp] theorem row_load_outcome (row : Row) (tag : Nat) :
    (row.load tag).1 = if row.holds tag then .hit else .miss := by
  simp only [Row.load, holds_aged]; split <;> rfl

@[simp] theorem row_load_length (row : Row) (tag : Nat) : (row.load tag).2.length = row.length := by
  simp only [Row.load]; split <;> simp

@[simp] theorem row_store_length (row : Row) (tag : Nat) : (row.store tag).length = row.length := by
  simp [Row.store]

theorem recency_le_max (row : Row) : ∀ b ∈ row, b.recency ≤ row.maxRecency := by
  induction row with
  | nil => simp
  | cons c rest ih =>
    intro b hb
    rcases List.mem_cons.mp hb with rfl | hb
    · exact Nat.le_max_left _ _
    · exact Nat.le_trans (ih b hb) (Nat.le_max_right _ _)

theorem exists_maxRecency (row : Row) (h : row ≠ []) : ∃ b ∈ row, b.recency = row.maxRecency := by
  induction row with
  | nil => exact absurd rfl h
  | cons c rest ih =>
    change ∃ b ∈ c :: rest, b.recency = max c.recency (Row.maxRecency rest)
    rcases Nat.le_total (Row.maxRecency rest) c.recency with hc | hc
    · exact ⟨c, by simp, by omega⟩
    · by_cases hr : rest = []
      · subst hr; exact ⟨c, by simp, by simp [Row.maxRecency]⟩
      · obtain ⟨b, hb, e⟩ := ih hr; exact ⟨b, by simp [hb], by omega⟩

/-- The first index at which a test holds, as the entry it stands at. -/
theorem findIdx_first (row : Row) (p : Block → Bool) (h : ∃ b ∈ row, p b = true) :
    ∃ b, row[row.findIdx p]? = some b ∧ p b = true ∧
      ∀ (k : Nat) (d : Block), k < row.findIdx p → row[k]? = some d → p d = false := by
  have hlt : row.findIdx p < row.length := List.findIdx_lt_length.mpr h
  refine ⟨row[row.findIdx p], List.getElem?_eq_getElem hlt, List.findIdx_getElem, fun k d hk hd => ?_⟩
  have hk' : k < row.length := by omega
  rw [List.getElem?_eq_getElem hk'] at hd
  have := List.not_of_lt_findIdx hk
  simp_all

/-- What `Row.oldest` chooses: the first block of greatest recency. -/
theorem oldest_spec (row : Row) (h : row ≠ []) :
    ∃ old, row[row.oldest]? = some old ∧ (∀ b ∈ row, b.recency ≤ old.recency) ∧
      ∀ (k : Nat) (b : Block), k < row.oldest → row[k]? = some b → b.recency < old.recency := by
  obtain ⟨m, hm, e⟩ := exists_maxRecency row h
  obtain ⟨old, hold, hp, hfirst⟩ := findIdx_first row (fun b => b.recency == row.maxRecency) ⟨m, hm, by simp [e]⟩
  have hp : old.recency = row.maxRecency := by simpa using hp
  refine ⟨old, hold, fun b hb => hp ▸ recency_le_max row b hb, fun k b hk hb => ?_⟩
  have h1 := hfirst k b hk hb
  have h2 := recency_le_max row b (List.mem_of_getElem? hb)
  have h1 : b.recency ≠ row.maxRecency := by simpa using h1
  omega

/-- What `Row.storeVictim` chooses in a row with an invalid block: the first invalid one. -/
theorem storeVictim_of_invalid (row : Row) (h : ∃ b ∈ row, b.valid = false) :
    ∃ old, row[row.storeVictim]? = some old ∧ old.valid = false ∧
      ∀ (k : Nat) (b : Block), k < row.storeVictim → row[k]? = some b → b.valid = true := by
  have hany : row.any (fun b => !b.valid) = true := by simpa using h
  rw [Row.storeVictim, if_pos hany]
  obtain ⟨old, ho, hp, hf⟩ := findIdx_first row (fun b => !b.valid) (by simpa using h)
  exact ⟨old, ho, by simpa using hp, fun k b hk hb => by simpa using hf k b hk hb⟩

/-- What `Row.storeVictim` chooses in a row whose blocks are all valid. -/
theorem storeVictim_of_valid (row : Row) (h : ∀ b ∈ row, b.valid = true) : row.storeVictim = row.oldest := by
  have hany : row.any (fun b => !b.valid) = false := by simpa using h
  simp [Row.storeVictim, hany]

theorem storeVictim_lt (row : Row) (h : row ≠ []) : row.storeVictim < row.length := by
  by_cases hi : ∃ b ∈ row, b.valid = false
  · obtain ⟨old, ho, -⟩ := storeVictim_of_invalid row hi
    exact (List.getElem?_eq_some_iff.mp ho).1
  · have hv : ∀ b ∈ row, b.valid = true := by simpa using hi
    obtain ⟨old, ho, -⟩ := oldest_spec row h
    rw [storeVictim_of_valid row hv]
    exact (List.getElem?_eq_some_iff.mp ho).1

theorem oldest_lt (row : Row) (h : row ≠ []) : row.oldest < row.length := by
  obtain ⟨old, ho, -⟩ := oldest_spec row h
  exact (List.getElem?_eq_some_iff.mp ho).1

theorem row_aged_ne_nil (row : Row) (h : row ≠ []) : row.aged ≠ [] := by simpa [Row.aged] using h

end Sys2Proof.Machine
end

