-- ==== Sys2Proof/Laws/Cache.lean ====
section
/-! SUPPORT. One cache level: what an access leaves of its configuration and of its rows. -/

namespace Sys2Proof.Machine

@[simp] theorem setRow_config (c : Cache) (r : Nat) (row : Row) : (c.setRow r row).config = c.config := rfl
@[simp] theorem setRow_rows (c : Cache) (r : Nat) (row : Row) : (c.setRow r row).rows = c.rows.set r row := rfl

/-- The parts of a load access, once. -/
theorem loadAccess_eq (c : Cache) (a : Addr) :
    c.loadAccess a = (((c.row (c.config.rowOf a)).load (c.config.tagOf a)).1, c.config.rowOf a,
      c.setRow (c.config.rowOf a) ((c.row (c.config.rowOf a)).load (c.config.tagOf a)).2) := rfl

/-- The parts of a store access, once. -/
theorem storeAccess_eq (c : Cache) (a : Addr) :
    c.storeAccess a = (c.config.rowOf a,
      c.setRow (c.config.rowOf a) ((c.row (c.config.rowOf a)).store (c.config.tagOf a))) := rfl

@[simp] theorem loadAccess_config (c : Cache) (a : Addr) : (c.loadAccess a).2.2.config = c.config := rfl
@[simp] theorem storeAccess_config (c : Cache) (a : Addr) : (c.storeAccess a).2.config = c.config := rfl
@[simp] theorem loadAccess_row (c : Cache) (a : Addr) : (c.loadAccess a).2.1 = c.config.rowOf a := rfl
@[simp] theorem storeAccess_row (c : Cache) (a : Addr) : (c.storeAccess a).1 = c.config.rowOf a := rfl

theorem row_eq_of_getElem? (c : Cache) (r : Nat) (row : Row) (h : c.rows[r]? = some row) : c.row r = row := by
  simp [Cache.row, List.getD, h]

theorem row_setRow (c : Cache) (r : Nat) (row : Row) (h : r < c.rows.length) : (c.setRow r row).row r = row := by
  simp [Cache.row, List.getD, h]

/-- The rows after a replacement: the replaced one is what was put there, if the level has it; the others are as before. -/
theorem setRow_getElem? (c : Cache) (r : Nat) (row : Row) (k : Nat) :
    (c.setRow r row).rows[k]? = if k = r then (c.rows[k]?).map (fun _ => row) else c.rows[k]? := by
  rw [setRow_rows, List.getElem?_set]
  by_cases hk : k = r
  · subst hk; by_cases h : k < c.rows.length <;> simp [h]
  · simp [hk, Ne.symm hk]

end Sys2Proof.Machine
end

