-- ==== Sys2Proof/Laws/Decode.lean ====
section
/-! SUPPORT. The fields of a word put together from fields (R82 to R84), and a word put together from its own fields. -/

namespace Sys2Proof

variable (op ra rb rd : BitVec 3) (func : BitVec 4) (imm : Imm) (target : Addr) (w : Word)

@[simp] theorem opcodeOf_wordRR : opcodeOf (wordRR ra rb rd func) = 0b000#3 := by
  unfold opcodeOf wordRR; ext i hi; simp; grind
@[simp] theorem raOf_wordRR : raOf (wordRR ra rb rd func) = ra := by
  unfold raOf wordRR; ext i hi; simp; grind
@[simp] theorem rbOf_wordRR : rbOf (wordRR ra rb rd func) = rb := by
  unfold rbOf wordRR; ext i hi; simp; grind
@[simp] theorem rdOf_wordRR : rdOf (wordRR ra rb rd func) = rd := by
  unfold rdOf wordRR; ext i hi; simp; grind
@[simp] theorem funcOf_wordRR : funcOf (wordRR ra rb rd func) = func := by
  unfold funcOf wordRR; ext i hi; simp; grind

@[simp] theorem opcodeOf_wordRI : opcodeOf (wordRI op ra rb imm) = op := by
  unfold opcodeOf wordRI; ext i hi; simp; grind
@[simp] theorem raOf_wordRI : raOf (wordRI op ra rb imm) = ra := by
  unfold raOf wordRI; ext i hi; simp; grind
@[simp] theorem rbOf_wordRI : rbOf (wordRI op ra rb imm) = rb := by
  unfold rbOf wordRI; ext i hi; simp; grind
@[simp] theorem immOf_wordRI : immOf (wordRI op ra rb imm) = imm := by
  unfold immOf wordRI; ext i hi; simp; grind

@[simp] theorem opcodeOf_wordCT : opcodeOf (wordCT op target) = op := by
  unfold opcodeOf wordCT; ext i hi; simp; grind
@[simp] theorem targetOf_wordCT : targetOf (wordCT op target) = target := by
  unfold targetOf wordCT; ext i hi; simp; grind

theorem wordRR_fields (h : opcodeOf w = 0b000#3) : wordRR (raOf w) (rbOf w) (rdOf w) (funcOf w) = w := by
  rw [wordRR, ← h]
  unfold opcodeOf raOf rbOf rdOf funcOf; ext i hi; simp; grind
theorem wordRI_fields : wordRI (opcodeOf w) (raOf w) (rbOf w) (immOf w) = w := by
  unfold wordRI opcodeOf raOf rbOf immOf; ext i hi; simp; grind
theorem wordCT_fields : wordCT (opcodeOf w) (targetOf w) = w := by
  unfold wordCT opcodeOf targetOf; ext i hi; simp; grind

end Sys2Proof
end

