-- ==== Sys2Proof/Laws/State.lean ====
section
/-! SUPPORT. One lemma per field of State per named update, so that later proofs unfold no record update. -/

namespace Sys2Proof.Machine

/-! ### setReg -/

@[simp] theorem setReg_regs (s : State) (r : Reg) (v : Word) : (s.setReg r v).regs = s.regs.set r.toNat v r.isLt := rfl
@[simp] theorem setReg_pc (s : State) (r : Reg) (v : Word) : (s.setReg r v).pc = s.pc := rfl
@[simp] theorem setReg_mem (s : State) (r : Reg) (v : Word) : (s.setReg r v).mem = s.mem := rfl
@[simp] theorem setReg_l1 (s : State) (r : Reg) (v : Word) : (s.setReg r v).l1 = s.l1 := rfl
@[simp] theorem setReg_l2 (s : State) (r : Reg) (v : Word) : (s.setReg r v).l2 = s.l2 := rfl
@[simp] theorem setReg_halted (s : State) (r : Reg) (v : Word) : (s.setReg r v).halted = s.halted := rfl
@[simp] theorem setReg_log (s : State) (r : Reg) (v : Word) : (s.setReg r v).log = s.log := rfl
@[simp] theorem setReg_loadHitReadsMemory (s : State) (r : Reg) (v : Word) : (s.setReg r v).loadHitReadsMemory = s.loadHitReadsMemory := rfl

/-! ### setPc -/

@[simp] theorem setPc_regs (s : State) (t : Addr) : (s.setPc t).regs = s.regs := rfl
@[simp] theorem setPc_pc (s : State) (t : Addr) : (s.setPc t).pc = t := rfl
@[simp] theorem setPc_mem (s : State) (t : Addr) : (s.setPc t).mem = s.mem := rfl
@[simp] theorem setPc_l1 (s : State) (t : Addr) : (s.setPc t).l1 = s.l1 := rfl
@[simp] theorem setPc_l2 (s : State) (t : Addr) : (s.setPc t).l2 = s.l2 := rfl
@[simp] theorem setPc_halted (s : State) (t : Addr) : (s.setPc t).halted = s.halted := rfl
@[simp] theorem setPc_log (s : State) (t : Addr) : (s.setPc t).log = s.log := rfl
@[simp] theorem setPc_loadHitReadsMemory (s : State) (t : Addr) : (s.setPc t).loadHitReadsMemory = s.loadHitReadsMemory := rfl

/-! ### retire -/

@[simp] theorem retire_regs (s : State) (t : Addr) : (s.retire t).regs = s.regs.set (0 : Reg).toNat 0 (0 : Reg).isLt := rfl
@[simp] theorem retire_pc (s : State) (t : Addr) : (s.retire t).pc = t := rfl
@[simp] theorem retire_mem (s : State) (t : Addr) : (s.retire t).mem = s.mem := rfl
@[simp] theorem retire_l1 (s : State) (t : Addr) : (s.retire t).l1 = s.l1 := rfl
@[simp] theorem retire_l2 (s : State) (t : Addr) : (s.retire t).l2 = s.l2 := rfl
@[simp] theorem retire_halted (s : State) (t : Addr) : (s.retire t).halted = s.halted := rfl
@[simp] theorem retire_log (s : State) (t : Addr) : (s.retire t).log = s.log := rfl
@[simp] theorem retire_loadHitReadsMemory (s : State) (t : Addr) : (s.retire t).loadHitReadsMemory = s.loadHitReadsMemory := rfl

/-! ### halt -/

@[simp] theorem halt_regs (s : State) : (s.halt).regs = s.regs := rfl
@[simp] theorem halt_pc (s : State) : (s.halt).pc = s.pc := rfl
@[simp] theorem halt_mem (s : State) : (s.halt).mem = s.mem := rfl
@[simp] theorem halt_l1 (s : State) : (s.halt).l1 = s.l1 := rfl
@[simp] theorem halt_l2 (s : State) : (s.halt).l2 = s.l2 := rfl
@[simp] theorem halt_halted (s : State) : (s.halt).halted = true := rfl
@[simp] theorem halt_log (s : State) : (s.halt).log = s.log := rfl
@[simp] theorem halt_loadHitReadsMemory (s : State) : (s.halt).loadHitReadsMemory = s.loadHitReadsMemory := rfl

/-! ### store -/

@[simp] theorem store_regs (s : State) (a : Addr) (v : Word) : (s.store a v).regs = s.regs := rfl
@[simp] theorem store_pc (s : State) (a : Addr) (v : Word) : (s.store a v).pc = s.pc := rfl
@[simp] theorem store_mem (s : State) (a : Addr) (v : Word) : (s.store a v).mem = s.mem.write a v := rfl
@[simp] theorem store_l1 (s : State) (a : Addr) (v : Word) : (s.store a v).l1 = s.l1 := rfl
@[simp] theorem store_l2 (s : State) (a : Addr) (v : Word) : (s.store a v).l2 = s.l2 := rfl
@[simp] theorem store_halted (s : State) (a : Addr) (v : Word) : (s.store a v).halted = s.halted := rfl
@[simp] theorem store_log (s : State) (a : Addr) (v : Word) : (s.store a v).log = s.log := rfl
@[simp] theorem store_loadHitReadsMemory (s : State) (a : Addr) (v : Word) : (s.store a v).loadHitReadsMemory = s.loadHitReadsMemory := rfl

/-! ### emit -/

@[simp] theorem emit_regs (s : State) (l : CacheLabel) (c : Classification) (a : Addr) (r : Nat) : (s.emit l c a r).regs = s.regs := rfl
@[simp] theorem emit_pc (s : State) (l : CacheLabel) (c : Classification) (a : Addr) (r : Nat) : (s.emit l c a r).pc = s.pc := rfl
@[simp] theorem emit_mem (s : State) (l : CacheLabel) (c : Classification) (a : Addr) (r : Nat) : (s.emit l c a r).mem = s.mem := rfl
@[simp] theorem emit_l1 (s : State) (l : CacheLabel) (c : Classification) (a : Addr) (r : Nat) : (s.emit l c a r).l1 = s.l1 := rfl
@[simp] theorem emit_l2 (s : State) (l : CacheLabel) (c : Classification) (a : Addr) (r : Nat) : (s.emit l c a r).l2 = s.l2 := rfl
@[simp] theorem emit_halted (s : State) (l : CacheLabel) (c : Classification) (a : Addr) (r : Nat) : (s.emit l c a r).halted = s.halted := rfl
@[simp] theorem emit_log (s : State) (l : CacheLabel) (c : Classification) (a : Addr) (r : Nat) : (s.emit l c a r).log = s.log ++ [⟨l, c, s.pc, a, r⟩] := rfl
@[simp] theorem emit_loadHitReadsMemory (s : State) (l : CacheLabel) (c : Classification) (a : Addr) (r : Nat) : (s.emit l c a r).loadHitReadsMemory = s.loadHitReadsMemory := rfl

/-! ### launch -/

@[simp] theorem launch_regs (p : Params) (image : Memory) : (State.launch p image).regs = Vector.replicate 8 0 := rfl
@[simp] theorem launch_pc (p : Params) (image : Memory) : (State.launch p image).pc = 0 := rfl
@[simp] theorem launch_mem (p : Params) (image : Memory) : (State.launch p image).mem = image := rfl
@[simp] theorem launch_l1 (p : Params) (image : Memory) : (State.launch p image).l1 = Cache.atReset p.l1 := rfl
@[simp] theorem launch_l2 (p : Params) (image : Memory) : (State.launch p image).l2 = p.l2.map Cache.atReset := rfl
@[simp] theorem launch_halted (p : Params) (image : Memory) : (State.launch p image).halted = false := rfl
@[simp] theorem launch_log (p : Params) (image : Memory) : (State.launch p image).log = [] := rfl
@[simp] theorem launch_loadHitReadsMemory (p : Params) (image : Memory) : (State.launch p image).loadHitReadsMemory = p.loadHitReadsMemory := rfl

/-! ### reading a register -/

/-- A read depends on the register file alone. -/
theorem reg_congr {s t : State} (h : s.regs = t.regs) (r : Reg) : s.reg r = t.reg r := by
  simp [State.reg, h]

@[simp] theorem setReg_reg (s : State) (r : Reg) (v : Word) (q : Reg) :
    (s.setReg r v).reg q = if q = r then v else s.reg q := by
  have key : r.toNat = q.toNat ↔ q = r := by
    constructor
    · intro h; exact (BitVec.eq_of_toNat_eq h).symm
    · rintro rfl; rfl
  simp only [State.reg, setReg_regs, Vector.getElem_set, key]

@[simp] theorem setPc_reg (s : State) (t : Addr) (q : Reg) : (s.setPc t).reg q = s.reg q := rfl

@[simp] theorem retire_reg (s : State) (t : Addr) (q : Reg) :
    (s.retire t).reg q = if q = 0 then 0 else s.reg q := by
  simp [State.retire]

@[simp] theorem halt_reg (s : State) (q : Reg) : s.halt.reg q = s.reg q := rfl

@[simp] theorem store_reg (s : State) (a : Addr) (v : Word) (q : Reg) : (s.store a v).reg q = s.reg q := rfl

@[simp] theorem emit_reg (s : State) (l : CacheLabel) (c : Classification) (a : Addr) (r : Nat) (q : Reg) :
    (s.emit l c a r).reg q = s.reg q := rfl

@[simp] theorem launch_reg (p : Params) (image : Memory) (q : Reg) : (State.launch p image).reg q = 0 := by
  simp [State.reg]

end Sys2Proof.Machine
end

