-- ==== Sys2Proof/Laws/Hierarchy.lean ====
section
/-! SUPPORT. The hierarchy coordinator: what a load and a store leave of each field of State. -/

namespace Sys2Proof.Machine

/-- Load access on L1, part by part. -/
theorem loadL1_eq (s : State) (a : Addr) :
    s.loadL1 a = ((s.l1.loadAccess a).1,
      { s with l1 := (s.l1.loadAccess a).2.2 }.emit .l1 (s.l1.loadAccess a).1.classification a (s.l1.loadAccess a).2.1) := rfl

/-- The hierarchy's load where L1 hits. -/
theorem cacheLoad_of_l1_hit (s : State) (a : Addr) (h : (s.l1.loadAccess a).1 = .hit) :
    s.cacheLoad a = (.hit, (s.loadL1 a).2) := by
  simp [State.cacheLoad, loadL1_eq, h]

/-- The hierarchy's load where L1 misses. -/
theorem cacheLoad_of_l1_miss (s : State) (a : Addr) (h : (s.l1.loadAccess a).1 = .miss) :
    s.cacheLoad a = (s.loadL1 a).2.loadL2 a := by
  simp [State.cacheLoad, loadL1_eq, h]

/-- Load access on an absent L2. -/
theorem loadL2_of_none (s : State) (a : Addr) (h : s.l2 = none) : s.loadL2 a = (.miss, s) := by
  simp [State.loadL2, h]

/-- Load access on a present L2, part by part. -/
theorem loadL2_of_some (s : State) (a : Addr) (c : Cache) (h : s.l2 = some c) :
    s.loadL2 a = ((c.loadAccess a).1,
      { s with l2 := some (c.loadAccess a).2.2 }.emit .l2 (c.loadAccess a).1.classification a (c.loadAccess a).2.1) := by
  simp [State.loadL2, h]

theorem storeL2_of_none (s : State) (a : Addr) (h : s.l2 = none) : s.storeL2 a = s := by
  simp [State.storeL2, h]

theorem storeL2_of_some (s : State) (a : Addr) (c : Cache) (h : s.l2 = some c) :
    s.storeL2 a = { s with l2 := some (c.storeAccess a).2 }.emit .l2 .sw a (c.storeAccess a).1 := by
  simp [State.storeL2, h]

/-- A property of a state that every load of the hierarchy keeps, checked once per level. -/
theorem cacheLoad_keeps (P : State → Prop) (s : State) (a : Addr)
    (h1 : P (s.loadL1 a).2) (h2 : ∀ t : State, P t → P (t.loadL2 a).2) : P (s.cacheLoad a).2 := by
  cases h : (s.l1.loadAccess a).1 with
  | hit => rw [cacheLoad_of_l1_hit s a h]; exact h1
  | miss => rw [cacheLoad_of_l1_miss s a h]; exact h2 _ h1

@[simp] theorem loadL2_regs (s : State) (a : Addr) : (s.loadL2 a).2.regs = s.regs := by
  rw [State.loadL2]; split <;> rfl
@[simp] theorem loadL2_pc (s : State) (a : Addr) : (s.loadL2 a).2.pc = s.pc := by
  rw [State.loadL2]; split <;> rfl
@[simp] theorem loadL2_mem (s : State) (a : Addr) : (s.loadL2 a).2.mem = s.mem := by
  rw [State.loadL2]; split <;> rfl
@[simp] theorem loadL2_l1 (s : State) (a : Addr) : (s.loadL2 a).2.l1 = s.l1 := by
  rw [State.loadL2]; split <;> rfl
@[simp] theorem loadL2_halted (s : State) (a : Addr) : (s.loadL2 a).2.halted = s.halted := by
  rw [State.loadL2]; split <;> rfl
@[simp] theorem loadL2_loadHitReadsMemory (s : State) (a : Addr) :
    (s.loadL2 a).2.loadHitReadsMemory = s.loadHitReadsMemory := by
  rw [State.loadL2]; split <;> rfl

@[simp] theorem cacheLoad_regs (s : State) (a : Addr) : (s.cacheLoad a).2.regs = s.regs :=
  cacheLoad_keeps (fun t => t.regs = s.regs) s a rfl fun t h => by simpa using h
@[simp] theorem cacheLoad_pc (s : State) (a : Addr) : (s.cacheLoad a).2.pc = s.pc :=
  cacheLoad_keeps (fun t => t.pc = s.pc) s a rfl fun t h => by simpa using h
@[simp] theorem cacheLoad_mem (s : State) (a : Addr) : (s.cacheLoad a).2.mem = s.mem :=
  cacheLoad_keeps (fun t => t.mem = s.mem) s a rfl fun t h => by simpa using h
@[simp] theorem cacheLoad_l1 (s : State) (a : Addr) : (s.cacheLoad a).2.l1 = (s.l1.loadAccess a).2.2 :=
  cacheLoad_keeps (fun t => t.l1 = (s.l1.loadAccess a).2.2) s a rfl fun t h => by simpa using h
@[simp] theorem cacheLoad_halted (s : State) (a : Addr) : (s.cacheLoad a).2.halted = s.halted :=
  cacheLoad_keeps (fun t => t.halted = s.halted) s a rfl fun t h => by simpa using h
@[simp] theorem cacheLoad_loadHitReadsMemory (s : State) (a : Addr) :
    (s.cacheLoad a).2.loadHitReadsMemory = s.loadHitReadsMemory :=
  cacheLoad_keeps (fun t => t.loadHitReadsMemory = s.loadHitReadsMemory) s a rfl fun t h => by simpa using h

@[simp] theorem cacheLoad_reg (s : State) (a : Addr) (q : Reg) : (s.cacheLoad a).2.reg q = s.reg q :=
  reg_congr (cacheLoad_regs s a) q

/-- L2 after the hierarchy's load: untouched where L1 hits, else as its own load access leaves it. -/
theorem cacheLoad_l2 (s : State) (a : Addr) :
    (s.cacheLoad a).2.l2 =
      if (s.l1.loadAccess a).1 = .hit then s.l2 else s.l2.map (fun c => (c.loadAccess a).2.2) := by
  cases h : (s.l1.loadAccess a).1 with
  | hit => rw [cacheLoad_of_l1_hit s a h]; rfl
  | miss =>
    rw [cacheLoad_of_l1_miss s a h]
    cases h2 : s.l2 with
    | none => rw [loadL2_of_none (s.loadL1 a).2 a h2]; exact h2
    | some c => rw [loadL2_of_some (s.loadL1 a).2 a c h2]; rfl

@[simp] theorem storeL2_regs (s : State) (a : Addr) : (s.storeL2 a).regs = s.regs := by
  rw [State.storeL2]; split <;> rfl
@[simp] theorem storeL2_pc (s : State) (a : Addr) : (s.storeL2 a).pc = s.pc := by
  rw [State.storeL2]; split <;> rfl
@[simp] theorem storeL2_mem (s : State) (a : Addr) : (s.storeL2 a).mem = s.mem := by
  rw [State.storeL2]; split <;> rfl
@[simp] theorem storeL2_l1 (s : State) (a : Addr) : (s.storeL2 a).l1 = s.l1 := by
  rw [State.storeL2]; split <;> rfl
@[simp] theorem storeL2_halted (s : State) (a : Addr) : (s.storeL2 a).halted = s.halted := by
  rw [State.storeL2]; split <;> rfl
@[simp] theorem storeL2_loadHitReadsMemory (s : State) (a : Addr) :
    (s.storeL2 a).loadHitReadsMemory = s.loadHitReadsMemory := by
  rw [State.storeL2]; split <;> rfl

@[simp] theorem cacheStore_regs (s : State) (a : Addr) : (s.cacheStore a).regs = s.regs := storeL2_regs (s.storeL1 a) a
@[simp] theorem cacheStore_pc (s : State) (a : Addr) : (s.cacheStore a).pc = s.pc := storeL2_pc (s.storeL1 a) a
@[simp] theorem cacheStore_mem (s : State) (a : Addr) : (s.cacheStore a).mem = s.mem := storeL2_mem (s.storeL1 a) a
@[simp] theorem cacheStore_l1 (s : State) (a : Addr) : (s.cacheStore a).l1 = (s.l1.storeAccess a).2 :=
  storeL2_l1 (s.storeL1 a) a
@[simp] theorem cacheStore_halted (s : State) (a : Addr) : (s.cacheStore a).halted = s.halted :=
  storeL2_halted (s.storeL1 a) a
@[simp] theorem cacheStore_loadHitReadsMemory (s : State) (a : Addr) :
    (s.cacheStore a).loadHitReadsMemory = s.loadHitReadsMemory := storeL2_loadHitReadsMemory (s.storeL1 a) a

@[simp] theorem cacheStore_reg (s : State) (a : Addr) (q : Reg) : (s.cacheStore a).reg q = s.reg q :=
  reg_congr (cacheStore_regs s a) q

/-- L2 after the hierarchy's store: as its own store access leaves it. -/
@[simp] theorem cacheStore_l2 (s : State) (a : Addr) :
    (s.cacheStore a).l2 = s.l2.map (fun c => (c.storeAccess a).2) := by
  have h : (s.storeL1 a).l2 = s.l2 := rfl
  cases h2 : s.l2 with
  | none => rw [State.cacheStore, storeL2_of_none _ a (h.trans h2), h, h2]; rfl
  | some c => rw [State.cacheStore, storeL2_of_some _ a c (h.trans h2)]; rfl

end Sys2Proof.Machine
end

