-- ==== Sys2Proof/Laws/Memory.lean ====
section
/-! SUPPORT. Memory: what a read gives after a write, and that every memory operation keeps the canonical form. -/

namespace Sys2Proof.Machine

theorem cellAt_without (m : Memory) (a b : Nat) :
    (m.without a).cellAt b = if b = a then unlistedCell else m.cellAt b := by
  induction m with
  | nil => simp [Memory.without, Memory.cellAt]
  | cons c rest ih =>
    obtain ⟨k, u⟩ := c
    rw [Memory.without] at ih ⊢
    by_cases hk : k = a
    · subst hk
      by_cases hb : b = k <;> simp_all [Memory.cellAt]
    · by_cases hb : b = k
      · subst hb; simp [Memory.cellAt, hk]
      · simp [Memory.cellAt, hk, hb, ih]

theorem cellAt_place (m : Memory) (a : Nat) (v : Word) (b : Nat) (h : ∀ c ∈ m, c.1 ≠ a) :
    (m.place a v).cellAt b = if b = a then v else m.cellAt b := by
  induction m with
  | nil => simp [Memory.place, Memory.cellAt]
  | cons c rest ih =>
    obtain ⟨k, u⟩ := c
    have hk : k ≠ a := h (k, u) (by simp)
    rw [Memory.place]
    split
    · simp [Memory.cellAt]
    · rw [Memory.cellAt, ih fun d hd => h d (List.mem_cons_of_mem _ hd)]
      by_cases hb : b = k
      · subst hb; simp [hk, Memory.cellAt]
      · simp [hb, Memory.cellAt]

theorem without_ne (m : Memory) (a : Nat) : ∀ c ∈ m.without a, c.1 ≠ a := by
  simp [Memory.without]

/-- What every read gives after a write, in every memory: the written cell its new value, every other cell its old. -/
theorem read_write (m : Memory) (a : Addr) (v : Word) (b : Addr) :
    (m.write a v).read b = if b = a then v else m.read b := by
  have key : b.toNat = a.toNat ↔ b = a := ⟨BitVec.eq_of_toNat_eq, fun h => h ▸ rfl⟩
  rw [Memory.write, Memory.read, Memory.read]
  split
  · rename_i hv; rw [cellAt_without]; simp only [key, hv]
  · rw [cellAt_place _ _ _ _ (without_ne m a.toNat), cellAt_without]; simp only [key]; split <;> simp_all

theorem mem_place (m : Memory) (a : Nat) (v : Word) (c : MemCell) (h : c ∈ m.place a v) : c = (a, v) ∨ c ∈ m := by
  induction m with
  | nil => simpa [Memory.place] using h
  | cons d rest ih =>
    rw [Memory.place] at h
    split at h
    · simpa using h
    · rcases List.mem_cons.mp h with rfl | h
      · simp
      · rcases ih h with h | h <;> simp [h]

theorem rising_place (m : Memory) (a : Nat) (v : Word) (h : m.Pairwise (fun c d => c.1 < d.1))
    (hne : ∀ c ∈ m, c.1 ≠ a) : (m.place a v).Pairwise (fun c d => c.1 < d.1) := by
  induction m with
  | nil => simp [Memory.place]
  | cons d rest ih =>
    obtain ⟨k, u⟩ := d
    obtain ⟨hk, hrest⟩ := List.pairwise_cons.mp h
    have hka : k ≠ a := hne (k, u) (by simp)
    rw [Memory.place]
    split
    · refine List.pairwise_cons.mpr ⟨fun c hc => ?_, h⟩
      rcases List.mem_cons.mp hc with rfl | hc
      · assumption
      · have := hk c hc; simp only at this ⊢; omega
    · refine List.pairwise_cons.mpr ⟨fun c hc => ?_, ih hrest fun c hc => hne c (List.mem_cons_of_mem _ hc)⟩
      rcases mem_place rest a v c hc with rfl | hc
      · simp only; omega
      · exact hk c hc

/-- A write keeps the canonical form. -/
theorem write_wf (m : Memory) (a : Addr) (v : Word) (h : m.wf) : (m.write a v).wf := by
  have hr : (m.without a.toNat).Pairwise (fun c d => c.1 < d.1) := h.1.filter _
  have hm : ∀ c ∈ m.without a.toNat, c.1 < 8192 ∧ c.2 ≠ unlistedCell := fun c hc =>
    h.2 c (List.mem_filter.mp hc).1
  rw [Memory.write]
  split
  · exact ⟨hr, hm⟩
  · refine ⟨rising_place _ _ _ hr (without_ne m _), fun c hc => ?_⟩
    rcases mem_place _ _ _ c hc with rfl | hc
    · exact ⟨a.isLt, ‹_›⟩
    · exact hm c hc

theorem reset_memory_wf : State.reset.mem.wf := by decide

end Sys2Proof.Machine
end

