-- ==== Sys2Proof/Laws/LoadStore.lean ====
section
/-! SUPPORT. Load-word and store-word before they retire: what they leave of each field of State. -/

namespace Sys2Proof.Machine

/-- A load-word writes at most its destination register on top of what the hierarchy leaves. -/
theorem loadWord_eq (s : State) (rb : Reg) (a : Addr) :
    s.loadWord rb a =
      if s.loadWrites (s.cacheLoad a).1 then (s.cacheLoad a).2.setReg rb (s.mem.read a) else (s.cacheLoad a).2 := by
  simp only [State.loadWord, cacheLoad_mem]

@[simp] theorem loadWord_reg (s : State) (rb : Reg) (a : Addr) (q : Reg) :
    (s.loadWord rb a).reg q =
      if q = rb ∧ s.loadWrites (s.cacheLoad a).1 = true then s.mem.read a else s.reg q := by
  rw [loadWord_eq]; split <;> by_cases hq : q = rb <;> simp_all

@[simp] theorem loadWord_pc (s : State) (rb : Reg) (a : Addr) : (s.loadWord rb a).pc = s.pc := by
  rw [loadWord_eq]; split <;> simp
@[simp] theorem loadWord_mem (s : State) (rb : Reg) (a : Addr) : (s.loadWord rb a).mem = s.mem := by
  rw [loadWord_eq]; split <;> simp
@[simp] theorem loadWord_l1 (s : State) (rb : Reg) (a : Addr) :
    (s.loadWord rb a).l1 = (s.l1.loadAccess a).2.2 := by
  rw [loadWord_eq]; split <;> simp
@[simp] theorem loadWord_l2 (s : State) (rb : Reg) (a : Addr) : (s.loadWord rb a).l2 = (s.cacheLoad a).2.l2 := by
  rw [loadWord_eq]; split <;> simp
@[simp] theorem loadWord_log (s : State) (rb : Reg) (a : Addr) : (s.loadWord rb a).log = (s.cacheLoad a).2.log := by
  rw [loadWord_eq]; split <;> simp
@[simp] theorem loadWord_halted (s : State) (rb : Reg) (a : Addr) : (s.loadWord rb a).halted = s.halted := by
  rw [loadWord_eq]; split <;> simp
@[simp] theorem loadWord_loadHitReadsMemory (s : State) (rb : Reg) (a : Addr) :
    (s.loadWord rb a).loadHitReadsMemory = s.loadHitReadsMemory := by
  rw [loadWord_eq]; split <;> simp

/-- The hierarchy's store does not look at memory: its log is the same before and after the memory write. -/
theorem cacheStore_store_log (s : State) (a b : Addr) (v : Word) :
    ((s.store a v).cacheStore b).log = (s.cacheStore b).log := by
  have h : ((s.store a v).storeL1 b).l2 = s.l2 := rfl
  have h' : (s.storeL1 b).l2 = s.l2 := rfl
  cases h2 : s.l2 with
  | none =>
    rw [State.cacheStore, State.cacheStore, storeL2_of_none _ b (h.trans h2), storeL2_of_none _ b (h'.trans h2)]; rfl
  | some c =>
    rw [State.cacheStore, State.cacheStore, storeL2_of_some _ b c (h.trans h2), storeL2_of_some _ b c (h'.trans h2)]; rfl

@[simp] theorem storeWord_reg (s : State) (rb : Reg) (a : Addr) (q : Reg) : (s.storeWord rb a).reg q = s.reg q := by
  simp [State.storeWord]
@[simp] theorem storeWord_pc (s : State) (rb : Reg) (a : Addr) : (s.storeWord rb a).pc = s.pc := by
  simp [State.storeWord]
@[simp] theorem storeWord_mem (s : State) (rb : Reg) (a : Addr) :
    (s.storeWord rb a).mem = s.mem.write a (s.reg rb) := by
  simp [State.storeWord]
@[simp] theorem storeWord_l1 (s : State) (rb : Reg) (a : Addr) :
    (s.storeWord rb a).l1 = (s.l1.storeAccess a).2 := by
  simp [State.storeWord]
@[simp] theorem storeWord_l2 (s : State) (rb : Reg) (a : Addr) :
    (s.storeWord rb a).l2 = s.l2.map (fun c => (c.storeAccess a).2) := by
  simp [State.storeWord]
@[simp] theorem storeWord_log (s : State) (rb : Reg) (a : Addr) : (s.storeWord rb a).log = (s.cacheStore a).log :=
  cacheStore_store_log s a a (s.reg rb)
@[simp] theorem storeWord_halted (s : State) (rb : Reg) (a : Addr) : (s.storeWord rb a).halted = s.halted := by
  simp [State.storeWord]
@[simp] theorem storeWord_loadHitReadsMemory (s : State) (rb : Reg) (a : Addr) :
    (s.storeWord rb a).loadHitReadsMemory = s.loadHitReadsMemory := by
  simp [State.storeWord]

end Sys2Proof.Machine
end

