-- ==== Sys2Proof/Laws/Operands.lean ====
section
/-! SUPPORT. The operand forms as numbers (R15, R85, R180). -/

namespace Sys2Proof.Machine

/-- R15: sext7 as the rule writes it. -/
theorem sext7_toNat (imm : Imm) : (sext7 imm).toNat = if imm.toNat < 64 then imm.toNat else imm.toNat + 65408 := by
  have h : imm.toNat < 128 := imm.isLt
  simp only [sext7, BitVec.toNat_signExtend, BitVec.msb_eq_decide, BitVec.toNat_setWidth]
  simp
  split <;> split <;> omega

@[simp] theorem toAddr_toNat (v : Word) : (toAddr v).toNat = v.toNat % 8192 := by simp [toAddr]

theorem nextPc_toNat (s : State) : s.nextPc.toNat = (s.pc.toNat + 1) % 8192 := by
  simp [State.nextPc]

theorem linkValue_toNat (s : State) : s.linkValue.toNat = s.pc.toNat + 1 := by
  have := s.pc.isLt
  simp [State.linkValue]; omega

end Sys2Proof.Machine
end

