-- ==== Sys2Proof/Laws/PerInstr.lean ====
section
/-! SUPPORT. The family of per-instruction statements: an instruction's word has the fixed bits of its row of
spec/opcode_table.json. -/

namespace Sys2Proof.Laws

/-- The "mask" and "match" columns of spec/opcode_table.json, written from the table. -/
def FixedBits.row (i : Instr) : Word × Word :=
  match i with
  | .add _ _ _ => (0xE00F, 0x0000)
  | .sub _ _ _ => (0xE00F, 0x0001)
  | .or _ _ _ => (0xE00F, 0x0002)
  | .and _ _ _ => (0xE00F, 0x0003)
  | .slt _ _ _ => (0xE00F, 0x0004)
  | .jr _ _ _ => (0xE00F, 0x0008)
  | .reserved0101 _ _ _ => (0xE00F, 0x0005)
  | .reserved0110 _ _ _ => (0xE00F, 0x0006)
  | .reserved0111 _ _ _ => (0xE00F, 0x0007)
  | .reserved1001 _ _ _ => (0xE00F, 0x0009)
  | .reserved1010 _ _ _ => (0xE00F, 0x000A)
  | .reserved1011 _ _ _ => (0xE00F, 0x000B)
  | .reserved1100 _ _ _ => (0xE00F, 0x000C)
  | .reserved1101 _ _ _ => (0xE00F, 0x000D)
  | .reserved1110 _ _ _ => (0xE00F, 0x000E)
  | .reserved1111 _ _ _ => (0xE00F, 0x000F)
  | .addi _ _ _ => (0xE000, 0x2000)
  | .lw _ _ _ => (0xE000, 0x8000)
  | .sw _ _ _ => (0xE000, 0xA000)
  | .jeq _ _ _ => (0xE000, 0xC000)
  | .slti _ _ _ => (0xE000, 0xE000)
  | .j _ => (0xE000, 0x4000)
  | .jal _ => (0xE000, 0x6000)

/-- The word of the instruction, under its row's mask, is its row's match. -/
def FixedBits.Statement (i : Instr) : Prop := encode i &&& (FixedBits.row i).1 = (FixedBits.row i).2

/-- The masked bits of a register-register word, as a number. -/
theorem masked_RR (ra rb rd : Reg) (func : BitVec 4) :
    wordRR ra rb rd func &&& 0xE00F#16 = func.setWidth 16 := by
  unfold wordRR; ext i hi
  rcases i with _ | _ | _ | _ | _ | _ | _ | _ | _ | _ | _ | _ | _ | _ | _ | _ | i <;> simp <;> grind

theorem masked_RI (op : BitVec 3) (ra rb : Reg) (imm : Imm) :
    wordRI op ra rb imm &&& 0xE000#16 = op.setWidth 16 <<< 13 := by
  unfold wordRI; ext i hi
  rcases i with _ | _ | _ | _ | _ | _ | _ | _ | _ | _ | _ | _ | _ | _ | _ | _ | i <;> simp <;> grind

theorem masked_CT (op : BitVec 3) (target : Addr) :
    wordCT op target &&& 0xE000#16 = op.setWidth 16 <<< 13 := by
  unfold wordCT; ext i hi
  rcases i with _ | _ | _ | _ | _ | _ | _ | _ | _ | _ | _ | _ | _ | _ | _ | _ | i <;> simp <;> grind

theorem FixedBits.add (ra rb rd : Reg) : FixedBits.Statement (.add ra rb rd) := masked_RR ra rb rd _
theorem FixedBits.sub (ra rb rd : Reg) : FixedBits.Statement (.sub ra rb rd) := masked_RR ra rb rd _
theorem FixedBits.or (ra rb rd : Reg) : FixedBits.Statement (.or ra rb rd) := masked_RR ra rb rd _
theorem FixedBits.and (ra rb rd : Reg) : FixedBits.Statement (.and ra rb rd) := masked_RR ra rb rd _
theorem FixedBits.slt (ra rb rd : Reg) : FixedBits.Statement (.slt ra rb rd) := masked_RR ra rb rd _
theorem FixedBits.jr (ra rb rd : Reg) : FixedBits.Statement (.jr ra rb rd) := masked_RR ra rb rd _
theorem FixedBits.reserved0101 (ra rb rd : Reg) : FixedBits.Statement (.reserved0101 ra rb rd) := masked_RR ra rb rd _
theorem FixedBits.reserved0110 (ra rb rd : Reg) : FixedBits.Statement (.reserved0110 ra rb rd) := masked_RR ra rb rd _
theorem FixedBits.reserved0111 (ra rb rd : Reg) : FixedBits.Statement (.reserved0111 ra rb rd) := masked_RR ra rb rd _
theorem FixedBits.reserved1001 (ra rb rd : Reg) : FixedBits.Statement (.reserved1001 ra rb rd) := masked_RR ra rb rd _
theorem FixedBits.reserved1010 (ra rb rd : Reg) : FixedBits.Statement (.reserved1010 ra rb rd) := masked_RR ra rb rd _
theorem FixedBits.reserved1011 (ra rb rd : Reg) : FixedBits.Statement (.reserved1011 ra rb rd) := masked_RR ra rb rd _
theorem FixedBits.reserved1100 (ra rb rd : Reg) : FixedBits.Statement (.reserved1100 ra rb rd) := masked_RR ra rb rd _
theorem FixedBits.reserved1101 (ra rb rd : Reg) : FixedBits.Statement (.reserved1101 ra rb rd) := masked_RR ra rb rd _
theorem FixedBits.reserved1110 (ra rb rd : Reg) : FixedBits.Statement (.reserved1110 ra rb rd) := masked_RR ra rb rd _
theorem FixedBits.reserved1111 (ra rb rd : Reg) : FixedBits.Statement (.reserved1111 ra rb rd) := masked_RR ra rb rd _
theorem FixedBits.addi (ra rb : Reg) (imm : Imm) : FixedBits.Statement (.addi ra rb imm) := masked_RI _ ra rb imm
theorem FixedBits.lw (ra rb : Reg) (imm : Imm) : FixedBits.Statement (.lw ra rb imm) := masked_RI _ ra rb imm
theorem FixedBits.sw (ra rb : Reg) (imm : Imm) : FixedBits.Statement (.sw ra rb imm) := masked_RI _ ra rb imm
theorem FixedBits.jeq (ra rb : Reg) (imm : Imm) : FixedBits.Statement (.jeq ra rb imm) := masked_RI _ ra rb imm
theorem FixedBits.slti (ra rb : Reg) (imm : Imm) : FixedBits.Statement (.slti ra rb imm) := masked_RI _ ra rb imm
theorem FixedBits.j (target : Addr) : FixedBits.Statement (.j target) := masked_CT _ target
theorem FixedBits.jal (target : Addr) : FixedBits.Statement (.jal target) := masked_CT _ target

end Sys2Proof.Laws
end

