-- ==== Sys2Proof/Laws/Step.lean ====
section
/-! SUPPORT. What a step can do, once. -/

namespace Sys2Proof.Machine

/-- The halt pattern is the j to its own address, and no other instruction. -/
theorem isHaltPattern_iff (w : Word) (pc : Addr) : isHaltPattern w pc = true ↔ decode w = .j pc := by
  simp only [isHaltPattern, Bool.and_eq_true, beq_iff_eq, decode, decodeRR]
  constructor
  · rintro ⟨h, rfl⟩; simp [h]
  · intro h
    split at h
    · split at h <;> simp_all
    all_goals simp_all

/-- A step that answers a next state: the machine was running, its configurations are admitted, and it either halted
or dispatched the instruction at pc. -/
theorem step_cases {s t : State} (h : step s = .next t) :
    s.halted = false ∧ s.configsAdmitted = true ∧
      ((decode s.fetch = .j s.pc ∧ t = s.halt) ∨ (decode s.fetch ≠ .j s.pc ∧ exec (decode s.fetch) s = .next t)) := by
  unfold step at h
  split at h
  · cases h
  · rename_i hh
    split at h
    · rename_i hc
      refine ⟨by simpa using hh, hc, ?_⟩
      split at h
      · rename_i hp
        cases h
        exact .inl ⟨(isHaltPattern_iff _ _).mp hp, rfl⟩
      · rename_i hp
        exact .inr ⟨fun e => hp ((isHaltPattern_iff _ _).mpr e), h⟩
    · cases h

/-- The step of a running machine with admitted configurations. -/
theorem step_of_running {s : State} (hh : s.halted = false) (hc : s.configsAdmitted = true) :
    step s = if isHaltPattern s.fetch s.pc then .next s.halt else exec (decode s.fetch) s := by
  simp [step, hh, hc]

end Sys2Proof.Machine
end

