-- ==== Sys2Proof/Laws/Run.lean ====
section
/-! SUPPORT. A run of n + 1 steps by what its first step answers (R217). -/

namespace Sys2Proof.Machine

theorem run_of_next {s t : State} (h : step s = .next t) (n : Nat) : run (n + 1) s = run n t := by
  simp [run, h]

theorem run_of_fault {s : State} {f : Fault} (h : step s = .fault f) (n : Nat) : run (n + 1) s = .fault f := by
  simp [run, h]

theorem run_of_refused {s : State} {r : Refusal} (h : step s = .refused r) (n : Nat) :
    run (n + 1) s = .refused r := by
  simp [run, h]

end Sys2Proof.Machine
end

