-- ==== Sys2Proof/Tests/Slice0.lean ====
section
/-! SUPPORT. The model's own tests. Expected results come from spec/95_test_vectors.md (the vector is named) or from the
worked examples of the rules; none is the model's own answer. -/

namespace Sys2Proof.Tests

open Sys2Proof.Machine

/-- The state after one step, if the step answers one. -/
def next? (o : Host.Outcome State Fault Refusal) : Option State :=
  match o with
  | .next s => some s
  | .fault _ => none
  | .refused _ => none

/-- The reset state with two registers set, pc moved, and a word placed at pc. -/
def small (x1 x2 : Word) (pc : Addr) (w : Nat) : State :=
  (((State.reset.setReg 1 x1).setReg 2 x2).setPc pc).withFetchWord 16 w

/-- One register, pc and the run status after one step. -/
def see (r : Reg) (s : State) : Option (Word × Addr × Bool) :=
  (next? (step s)).map (fun t => (t.reg r, t.pc, t.halted))

/-! ## Well-formedness: each check refuses an ill-formed term -/

theorem test_config_refuses_zero_size : CacheConfig.admitted { size := 0, assoc := 1, blockSize := 1 } = false := by decide
theorem test_config_refuses_zero_assoc : CacheConfig.admitted { size := 4, assoc := 0, blockSize := 1 } = false := by decide
theorem test_config_refuses_zero_blockSize : CacheConfig.admitted { size := 4, assoc := 1, blockSize := 0 } = false := by
  decide
theorem test_config_refuses_non_dividing : CacheConfig.admitted { size := 4, assoc := 3, blockSize := 1 } = false := by
  decide
theorem test_config_admits_non_power_of_two : CacheConfig.admitted { size := 6, assoc := 1, blockSize := 2 } = true := by
  decide
theorem test_params_refuse_bad_l2 :
    Params.wellFormed { l1 := ⟨4, 1, 1⟩, l2 := some ⟨8, 3, 1⟩, loadHitReadsMemory := false } = false := by decide
theorem test_image_refuses_wrong_order : ¬ imageWellFormed [(1, 5), (0, 5)] := by decide
theorem test_image_refuses_listed_zero : ¬ imageWellFormed [(1, 0)] := by decide
theorem test_image_refuses_no_cell : ¬ imageWellFormed [(8192, 5)] := by decide
theorem test_launch_refuses_four_values : launchLevels [4, 1, 1, 8] = .error .wrongCount := by decide
theorem test_launch_two_levels : (launchLevels [4, 1, 1, 8, 2, 1]).toOption.map (fun p => (p.1.numRows, p.2.map CacheConfig.numRows))
    = some (4, some 4) := by decide
theorem test_launch_refuses_bad_level : launchLevels [4, 3, 1] = .error .notAdmitted := by decide

/-! ## Decoding: one written-out word for every constructor (words of section 2 of the vectors; the reserved codes by R167) -/

theorem test_decode_add : decode 0b0000010100110000 = .add 1 2 3 := by decide
theorem test_decode_sub : decode 0b0000010100110001 = .sub 1 2 3 := by decide
theorem test_decode_or : decode 0b0000010100110010 = .or 1 2 3 := by decide
theorem test_decode_and : decode 0b0000010100110011 = .and 1 2 3 := by decide
theorem test_decode_slt : decode 0b0001011100110100 = .slt 5 6 3 := by decide
theorem test_decode_jr : decode 0b0000011111111000 = .jr 1 7 7 := by decide
theorem test_decode_reserved0101 : decode 0b0000010100110101 = .reserved0101 1 2 3 := by decide
theorem test_decode_reserved0110 : decode 0b0000010100110110 = .reserved0110 1 2 3 := by decide
theorem test_decode_reserved0111 : decode 0b0000010100110111 = .reserved0111 1 2 3 := by decide
theorem test_decode_reserved1001 : decode 0b0000010100111001 = .reserved1001 1 2 3 := by decide
theorem test_decode_reserved1010 : decode 0b0000010100111010 = .reserved1010 1 2 3 := by decide
theorem test_decode_reserved1011 : decode 0b0000010100111011 = .reserved1011 1 2 3 := by decide
theorem test_decode_reserved1100 : decode 0b0000010100111100 = .reserved1100 1 2 3 := by decide
theorem test_decode_reserved1101 : decode 0b0000010100111101 = .reserved1101 1 2 3 := by decide
theorem test_decode_reserved1110 : decode 0b0000010100111110 = .reserved1110 1 2 3 := by decide
theorem test_decode_reserved1111 : decode 0b0000010100111111 = .reserved1111 1 2 3 := by decide
theorem test_decode_addi : decode 0b0011101011000000 = .addi 6 5 0b1000000 := by decide
theorem test_decode_lw : decode 0b1000110101111111 = .lw 3 2 0b1111111 := by decide
theorem test_decode_sw : decode 0b1010010010000011 = .sw 1 1 3 := by decide
theorem test_decode_jeq : decode 0b1100010000000011 = .jeq 1 0 3 := by decide
theorem test_decode_slti : decode 0b1110010101111111 = .slti 1 2 0b1111111 := by decide
theorem test_decode_j : decode 0b0101001000110100 = .j 4660 := by decide
theorem test_decode_jal : decode 0b0110000000000100 = .jal 4 := by decide

/-- The same words back from their instructions. -/
theorem test_encode_add : encode (.add 1 2 3) = 0b0000010100110000 := by decide
theorem test_encode_slt : encode (.slt 5 6 3) = 0b0001011100110100 := by decide
theorem test_encode_jr : encode (.jr 1 7 7) = 0b0000011111111000 := by decide
theorem test_encode_reserved1001 : encode (.reserved1001 1 2 3) = 0b0000010100111001 := by decide
theorem test_encode_addi : encode (.addi 6 5 0b1000000) = 0b0011101011000000 := by decide
theorem test_encode_lw : encode (.lw 3 2 0b1111111) = 0b1000110101111111 := by decide
theorem test_encode_sw : encode (.sw 1 1 3) = 0b1010010010000011 := by decide
theorem test_encode_jeq : encode (.jeq 1 0 3) = 0b1100010000000011 := by decide
theorem test_encode_slti : encode (.slti 1 2 0b1111111) = 0b1110010101111111 := by decide
theorem test_encode_j : encode (.j 4660) = 0b0101001000110100 := by decide
theorem test_encode_jal : encode (.jal 4) = 0b0110000000000100 := by decide
theorem test_rejects_long_row : decodeTableWord 32 0 = none := by decide
theorem test_rejects_bits_above_the_cell : decodeTableWord 16 65536 = none := by decide

/-! ## One step of each instruction -/

theorem test_add_wraps : see 3 (small 0xFFFF 2 10 0x0530) = some (1, 11, false) := by decide -- V1
theorem test_add_to_zero : see 0 (small 7 0 10 0x0480) = some (0, 11, false) := by decide -- V4
theorem test_sub_borrows : see 3 (small 3 5 10 0x0531) = some (0xFFFE, 11, false) := by decide -- V6
theorem test_sub_same : see 1 (small 0xABCD 0 10 0x0491) = some (0, 11, false) := by decide -- V8
theorem test_or : see 3 (small 0x00F0 0x0F0F 10 0x0532) = some (0x0FFF, 11, false) := by decide -- V9
theorem test_and : see 3 (small 0x00FF 0x0F0F 10 0x0533) = some (0x000F, 11, false) := by decide -- V11
theorem test_slt_unsigned : see 3 (small 1 0xFFFF 10 0x0534) = some (1, 11, false) := by decide -- V13
theorem test_slt_high_bit_is_large : see 3 (small 0x8000 1 10 0x0534) = some (0, 11, false) := by decide -- V15
theorem test_jr_drops_high_bits : see 1 (small 0x2006 0 5 0x0408) = some (0x2006, 6, false) := by decide -- R166
theorem test_jr_ignores_fields : see 1 (small 0x0040 0 5 0x07F8) = some (0x0040, 64, false) := by decide -- V22
theorem test_reserved0101 : see 3 (small 1 2 8191 0x535) = some (0, 0, false) := by decide -- V24 to V26, R167
theorem test_reserved0110 : see 3 (small 1 2 8191 0x536) = some (0, 0, false) := by decide -- V24 to V26, R167
theorem test_reserved0111 : see 3 (small 1 2 8191 0x537) = some (0, 0, false) := by decide -- V24 to V26, R167
theorem test_reserved1001 : see 3 (small 1 2 8191 0x539) = some (0, 0, false) := by decide -- V24 to V26, R167
theorem test_reserved1010 : see 3 (small 1 2 8191 0x53a) = some (0, 0, false) := by decide -- V24 to V26, R167
theorem test_reserved1011 : see 3 (small 1 2 8191 0x53b) = some (0, 0, false) := by decide -- V24 to V26, R167
theorem test_reserved1100 : see 3 (small 1 2 8191 0x53c) = some (0, 0, false) := by decide -- V24 to V26, R167
theorem test_reserved1101 : see 3 (small 1 2 8191 0x53d) = some (0, 0, false) := by decide -- V24 to V26, R167
theorem test_reserved1110 : see 3 (small 1 2 8191 0x53e) = some (0, 0, false) := by decide -- V24 to V26, R167
theorem test_reserved1111 : see 3 (small 1 2 8191 0x53f) = some (0, 0, false) := by decide -- V24 to V26, R167
theorem test_addi_negative : see 1 (small 0 0 10 0x24FF) = some (0xFFFF, 11, false) := by decide -- V28
theorem test_addi_least : see 2 (small 0x40 9 10 0x2540) = some (0, 11, false) := by decide -- V30
theorem test_slti_negative_is_large : see 2 (small 5 0 10 0xE57F) = some (1, 11, false) := by decide -- V33
theorem test_slti_bound : see 2 (small 0xFFC0 9 10 0xE540) = some (0, 11, false) := by decide -- V36
theorem test_jeq_wraps_forward : see 1 (small 7 7 8191 0xC53F) = some (7, 63, false) := by decide -- V43
theorem test_jeq_not_taken : see 1 (small 1 2 8191 0xC505) = some (1, 0, false) := by decide -- V46
theorem test_j : see 1 (small 0 0 5 0x4002) = some (0, 2, false) := by decide -- V47
theorem test_j_halts : see 1 (small 0xAAAA 0 2 0x4002) = some (0xAAAA, 2, true) := by decide -- V48
theorem test_jal_links_8192 : see 7 (small 0 0 8191 0x6005) = some (0x2000, 5, false) := by decide -- V52
theorem test_jal_to_itself_runs_on : see 7 (small 0 0 3 0x6003) = some (4, 3, false) := by decide -- V53

/-! ## Load-word and store-word -/

theorem test_lw_wraps_and_misses : -- M1
    (next? (step ((State.reset.store 8191 0xBEEF).withFetchWord 16 0x80FF))).map
      (fun t => (t.reg 1, t.log, t.l1.row 3)) =
    some (0xBEEF, [⟨.l1, .miss, 0, 8191, 3⟩], [⟨true, 2047, 0⟩]) := by decide

/-- The start of vector M5: register 2 and cell 16 set, L1 row 0 holding tag 4. -/
def m5 (setting : Bool) : State :=
  { ((State.reset.setReg 2 0x5555).store 16 0x002A).withFetchWord 16 0x8110 with
    l1 := (Cache.atReset ⟨4, 1, 1⟩).setRow 0 [⟨true, 4, 0⟩], loadHitReadsMemory := setting }

theorem test_lw_literal_hit_keeps_the_register : -- M5
    (next? (step (m5 false))).map (fun t => (t.reg 2, t.log)) = some (0x5555, [⟨.l1, .hit, 0, 16, 0⟩]) := by decide
theorem test_lw_corrected_hit_loads : -- M5
    (next? (step (m5 true))).map (fun t => (t.reg 2, t.l1.row 0)) = some (0x002A, [⟨true, 4, 0⟩]) := by decide
theorem test_sw_wraps : -- M2
    (next? (step (small 0xFFFF 0 0 0xA483))).map (fun t => (t.mem.read 2, t.log, t.l1.row 2)) =
    some (0xFFFF, [⟨.l1, .sw, 0, 2, 2⟩], [⟨true, 0, 0⟩]) := by decide
theorem test_sw_over_itself : -- M6
    (next? (step (small 0 0 0 0xA000))).map (fun t => (t.mem, t.pc)) = some ([], 1) := by decide

/-- The two-level start of program P6 at its third load: L1 holds tag 1 in row 0, L2 holds tags 0 and 1. -/
def p6 : State :=
  { (State.reset.setPc 2).withFetchWord 16 0x8180 with
    l1 := (Cache.atReset ⟨4, 1, 1⟩).setRow 0 [⟨true, 1, 0⟩],
    l2 := some ((Cache.atReset ⟨8, 2, 1⟩).setRow 0 [⟨true, 0, 1⟩, ⟨true, 1, 0⟩]) }

theorem test_l1_miss_l2_hit : -- P6
    (next? (step p6)).map (fun t => (t.log, t.reg 3, t.l1.row 0, t.l2.map (fun c => c.row 0))) =
    some ([⟨.l1, .miss, 2, 0, 0⟩, ⟨.l2, .hit, 2, 0, 0⟩], 0, [⟨true, 0, 0⟩], some [⟨true, 0, 0⟩, ⟨true, 1, 1⟩]) := by
  decide

/-! ## One row: single accesses of sequences VC1 to VC7 -/

theorem test_row_first_miss : Row.load [⟨false, 0, 0⟩, ⟨false, 0, 0⟩] 5 = (.miss, [⟨true, 5, 0⟩, ⟨false, 0, 1⟩]) := by
  decide -- VC1
theorem test_row_hit_ages_the_rest : Row.load [⟨true, 5, 1⟩, ⟨true, 9, 0⟩] 5 = (.hit, [⟨true, 5, 0⟩, ⟨true, 9, 1⟩]) := by
  decide -- VC1
theorem test_row_store_duplicates : Row.store [⟨true, 5, 0⟩, ⟨false, 0, 1⟩] 5 = [⟨true, 5, 1⟩, ⟨true, 5, 0⟩] := by
  decide -- VC2
theorem test_row_load_resets_both : Row.load [⟨true, 5, 1⟩, ⟨true, 5, 0⟩] 5 = (.hit, [⟨true, 5, 0⟩, ⟨true, 5, 0⟩]) := by
  decide -- VC2
theorem test_row_miss_breaks_ties_low : Row.load [⟨true, 5, 0⟩, ⟨true, 5, 0⟩] 6 = (.miss, [⟨true, 6, 0⟩, ⟨true, 5, 1⟩]) := by
  decide -- VC2
theorem test_row_store_fills_first_invalid :
    Row.store [⟨true, 1, 0⟩, ⟨false, 0, 1⟩, ⟨false, 0, 1⟩, ⟨false, 0, 1⟩] 2 =
      [⟨true, 1, 1⟩, ⟨true, 2, 0⟩, ⟨false, 0, 2⟩, ⟨false, 0, 2⟩] := by decide -- VC3
theorem test_row_store_evicts_oldest : Row.store [⟨true, 1, 0⟩, ⟨true, 2, 1⟩] 3 = [⟨true, 1, 1⟩, ⟨true, 3, 0⟩] := by
  decide -- VC7
theorem test_blocks_share_two_words :
    (CacheConfig.rowOf ⟨6, 1, 2⟩ 7, CacheConfig.tagOf ⟨6, 1, 2⟩ 7, CacheConfig.rowOf ⟨6, 1, 2⟩ 13,
      CacheConfig.tagOf ⟨6, 1, 2⟩ 13) = (0, 1, 0, 2) := by decide -- VC5

/-! ## Stops and the run's end -/

theorem test_halted_machine_stops : next? (step State.reset.halt) = none := by decide
theorem test_bad_configuration_is_refused :
    (match step { State.reset with l1 := Cache.atReset ⟨4, 3, 1⟩ } with | .refused .cacheConfigNotAdmitted => true | _ => false)
      = true := by decide

/-! ## Witnesses: states and operands that meet the hypotheses of each statement that has some -/

/-- A running machine about to store register 1 over the next cell. -/
def storing : State := small 0x2107 0 0 0xA081

theorem witness_running_dispatch : State.reset.halted = false ∧ State.reset.configsAdmitted = true ∧
    (Instr.add 0 0 0).wellFormed = true ∧ decode State.reset.fetch = .add 0 0 0 := by decide
theorem witness_running_halt_pattern : (small 0 0 2 0x4002).halted = false ∧ (small 0 0 2 0x4002).configsAdmitted = true ∧
    ((small 0 0 2 0x4002).mem.read 2).extractLsb' 13 3 = 0b010#3 ∧
    ((small 0 0 2 0x4002).mem.read 2).extractLsb' 0 13 = (small 0 0 2 0x4002).pc := by decide
theorem witness_step_answers :
    (next? (step State.reset)).isSome = true ∧ (next? (step (small 0 0 2 0x4002))).isSome = true ∧
    decode (small 0 0 2 0x4002).fetch = .j (small 0 0 2 0x4002).pc ∧ decode State.reset.fetch ≠ .j State.reset.pc := by decide
theorem witness_exec_answers (i : Instr) : ∃ t, exec i State.reset = .next t := by
  cases i
  case j target =>
    by_cases h : target = State.reset.pc
    · exact ⟨_, by rw [exec, execJ, if_pos h]⟩
    · exact ⟨_, by rw [exec, execJ, if_neg h]⟩
  all_goals exact ⟨_, rfl⟩
theorem witness_not_the_halt_jump : Instr.add 0 0 0 ≠ .j State.reset.pc := by decide
theorem witness_halted : State.reset.halt.halted = true := by decide
theorem witness_bad_levels :
    (Cache.atReset ⟨4, 3, 1⟩).config.admitted = false ∧
    (∃ c, some (Cache.atReset ⟨8, 3, 1⟩) = some c ∧ c.config.admitted = false) ∧ State.reset.halted = false :=
  ⟨by decide, ⟨_, rfl, by decide⟩, by decide⟩
theorem witness_listings :
    (List.replicate 8192 (1 : Word)).length ≤ 8192 ∧ 8192 < (List.replicate 8193 (1 : Word)).length :=
  ⟨by rw [List.length_replicate], by rw [List.length_replicate]; exact Nat.lt_succ_self 8192⟩
theorem witness_two_levels : Params.wellFormed { l1 := ⟨4, 1, 1⟩, l2 := some ⟨8, 2, 1⟩, loadHitReadsMemory := true } = true ∧
    imageWellFormed [(0, 0x2085), (1, 0x4001)] := by decide
theorem witness_memories : Memory.wf [(3, 7)] ∧ Memory.wf (Memory.write [] 3 7) ∧ Memory.write [] 3 7 = [(3, 7)] := by decide
theorem witness_neither_load_nor_store :
    (∀ ra rb imm, Instr.add 1 2 3 ≠ .sw ra rb imm) ∧ (∀ ra rb imm, Instr.add 1 2 3 ≠ .lw ra rb imm) := by
  constructor <;> intros <;> exact nofun
theorem witness_opcodes :
    (0x2085 : Word).extractLsb' 13 3 = 0b001#3 ∧ (0x4001 : Word).extractLsb' 13 3 = 0b010#3 ∧
    (0x6004 : Word).extractLsb' 13 3 = 0b011#3 ∧ (0x8110 : Word).extractLsb' 13 3 = 0b100#3 ∧
    (0xA090 : Word).extractLsb' 13 3 = 0b101#3 ∧ (0xC403 : Word).extractLsb' 13 3 = 0b110#3 ∧
    (0xE57F : Word).extractLsb' 13 3 = 0b111#3 ∧
    ∀ f : BitVec 4, (wordRR 1 2 3 f).extractLsb' 13 3 = 0b000#3 ∧ (wordRR 1 2 3 f).extractLsb' 0 4 = f := by decide
theorem witness_destination_not_zero : (3 : Reg) ≠ 0 := by decide
theorem witness_jump_targets : (2 : Addr) ≠ (small 0 0 5 0x4002).pc ∧ (2 : Addr) = (small 0 0 2 0x4002).pc := by decide
theorem witness_store_to_the_next_cell : storing.halted = false ∧ storing.configsAdmitted = true ∧
    decode storing.fetch = .sw 0 1 1 ∧ storing.effAddr 0 1 = storing.pc + 1 := by decide
theorem witness_same_view :
    State.SameProgramView { State.reset with loadHitReadsMemory := true }
      { m5 true with regs := State.reset.regs, mem := [] } ∧
    { State.reset with loadHitReadsMemory := true }.configsAdmitted = true ∧
    { m5 true with regs := State.reset.regs, mem := [] }.configsAdmitted = true :=
  ⟨⟨rfl, rfl, rfl, rfl, rfl⟩, by decide, by decide⟩
theorem witness_accessed_rows : -- a two-way level, at the lowest and the highest address
    (Cache.atReset ⟨8, 2, 1⟩).rows[(0 : Addr).toNat / 1 % CacheConfig.numRows ⟨8, 2, 1⟩]? = some [⟨false, 0, 0⟩, ⟨false, 0, 0⟩] ∧
    (Cache.atReset ⟨8, 2, 1⟩).rows[(8191 : Addr).toNat / 1 % CacheConfig.numRows ⟨8, 2, 1⟩]? =
      some [⟨false, 0, 0⟩, ⟨false, 0, 0⟩] := by decide
theorem test_scenario_row_counts : -- R148: "4,1,1,8,2,1" gives "L1 rows=4, L2 rows=4"
    CacheConfig.numRows ⟨4, 1, 1⟩ = 4 ∧ CacheConfig.numRows ⟨8, 2, 1⟩ = 4 := by decide
theorem witness_row_hit : ∃ b ∈ ([⟨true, 5, 0⟩, ⟨false, 0, 1⟩] : Row), b.valid = true ∧ b.tag = 5 := by decide
theorem witness_row_miss : ([⟨true, 5, 0⟩, ⟨false, 9, 1⟩] : Row) ≠ [] ∧
    ∀ b ∈ ([⟨true, 5, 0⟩, ⟨false, 9, 1⟩] : Row), ¬ (b.valid = true ∧ b.tag = 9) := by decide
theorem witness_row_with_invalid : ∃ b ∈ ([⟨true, 5, 0⟩, ⟨false, 0, 1⟩] : Row), b.valid = false := by decide
theorem witness_row_all_valid : ∀ b ∈ ([⟨true, 5, 0⟩, ⟨true, 6, 1⟩] : Row), b.valid = true := by decide
theorem witness_row_invalidOldest : Row.invalidOldest [⟨true, 5, 0⟩, ⟨false, 0, 1⟩] := by
  unfold Row.invalidOldest; decide
theorem witness_touched_row : (Cache.atReset ⟨4, 1, 1⟩).rows[(0 : Nat)]? = some [⟨false, 0, 0⟩] ∧
    ((Cache.atReset ⟨4, 1, 1⟩).loadAccess 0).2.2.rows[(0 : Nat)]? = some [⟨true, 0, 0⟩] ∧
    (1 : Nat) ≠ CacheConfig.rowOf ⟨4, 1, 1⟩ 0 := by decide
theorem witness_lru_full : (∀ b ∈ ([⟨true, 1, 0⟩, ⟨true, 2, 1⟩] : Row), b.valid = true) ∧ [3, 4, 5].Nodup ∧
    (Row.loadAll [⟨true, 1, 0⟩, ⟨true, 2, 1⟩] [3, 4, 5]).1 = List.replicate [3, 4, 5].length .miss ∧
    [3, 4, 5].length = ([⟨true, 1, 0⟩, ⟨true, 2, 1⟩] : Row).length + 1 := by decide
theorem witness_lru_within : [3, 4].Nodup ∧
    (Row.loadAll [⟨true, 1, 0⟩, ⟨true, 2, 1⟩] [3, 4]).1 = List.replicate [3, 4].length .miss ∧
    [3, 4].length ≤ ([⟨true, 1, 0⟩, ⟨true, 2, 1⟩] : Row).length := by decide

/-- A level of one row with a valid and an invalid block, of two words each. -/
def level : Cache := { config := ⟨4, 2, 2⟩, rows := [[⟨true, 5, 0⟩, ⟨false, 0, 1⟩]] }

theorem witness_level_inv : level.Inv := by
  refine ⟨by decide, by decide, by decide, by decide, ?_⟩
  intro row hrow
  simp only [level, List.mem_singleton] at hrow
  subst hrow
  exact witness_row_invalidOldest

theorem witness_same_block : level.Inv ∧ (6 : Addr).toNat / level.config.blockSize = (7 : Addr).toNat / level.config.blockSize :=
  ⟨witness_level_inv, by decide⟩

/-- A state with both levels, a stored cell and a running machine that meets the invariant. -/
def lively : State :=
  { State.reset with mem := [(0, 0xA081), (3, 7)], l1 := level, l2 := some level }

theorem witness_state_inv : lively.Inv ∧ (next? (step lively)).isSome = true :=
  ⟨⟨by decide, by decide, witness_level_inv, fun c h => by cases h; exact witness_level_inv⟩, by decide⟩

theorem witness_store_then_load :
    lively.Inv ∧ lively.loadHitReadsMemory = false ∧ (2 : Reg) ≠ 0 ∧
    (next? (exec (.sw 0 1 6) lively)).map (fun t => decide (t.effAddr 0 6 = lively.effAddr 0 6)) = some true :=
  ⟨witness_state_inv.1, by decide, by decide, by decide⟩
theorem witness_corrected_store_then_load :
    { lively with loadHitReadsMemory := true }.loadHitReadsMemory = true ∧ (2 : Reg) ≠ 0 ∧
    (next? (exec (.sw 0 1 6) { lively with loadHitReadsMemory := true })).map
      (fun t => decide (t.effAddr 0 6 = { lively with loadHitReadsMemory := true }.effAddr 0 6)) = some true := by decide

end Sys2Proof.Tests
end

section
/-! The run status (R33, R40): where it is false, and the one step that sets it. -/

namespace Sys2Proof.Machine

/-- Only the j to its own address touches the run status (R201, R203). The load and the store go through the cache
hierarchy, the j has its halting branch excluded, and every other instruction writes registers and pc alone. -/
theorem exec_halted_of_ne_j_pc {i : Instr} {s t : State} (hi : i ≠ .j s.pc) (h : exec i s = .next t) :
    t.halted = s.halted := by
  cases i with
  | lw ra rb imm => cases h; simp
  | sw ra rb imm => cases h; simp
  | j target =>
    have hne : target ≠ s.pc := fun e => hi (congrArg Instr.j e)
    rw [exec, execJ, if_neg hne] at h
    cases h
    simp
  | _ => cases h; rfl

/-- The step lemma of the run status (R33, R212): the halt branch sets it, and a dispatched instruction, which is then
no j to its own address, leaves it false. -/
theorem step_halted_iff {s t : State} (h : step s = .next t) : t.halted = true ↔ decode s.fetch = .j s.pc := by
  obtain ⟨hrunning, -, ⟨hhalt, rfl⟩ | ⟨hdispatch, hexec⟩⟩ := step_cases h
  · simp [hhalt]
  · have hkept : t.halted = false := (exec_halted_of_ne_j_pc hdispatch hexec).trans hrunning
    simp [hkept, hdispatch]

/-- R216: a step is taken by a running machine only. -/
theorem step_ne_next_of_halted {s : State} (hs : s.halted = true) (t : State) : step s ≠ .next t := by
  intro h
  obtain ⟨hrunning, -⟩ := step_cases h
  simp [hs] at hrunning

/-- Settles O14: the launch's field, the step lemma of the run status, and the end of a halted machine. -/
theorem runStatusLifecycle : Obligations.RunStatusLifecycle :=
  ⟨launch_halted, fun _ _ => step_halted_iff, fun _ t hs => step_ne_next_of_halted hs t⟩

/-- Settles O2: reset is a launch, so the fields of a launch speak of both. -/
theorem nothingHasHappenedAtReset : Obligations.NothingHasHappenedAtReset := by
  have atLaunch (p : Params) (image : Memory) :
      (State.launch p image).halted = false ∧ (State.launch p image).log = [] :=
    ⟨launch_halted p image, launch_log p image⟩
  exact ⟨atLaunch, atLaunch Params.standard []⟩

end Sys2Proof.Machine
end

section
/-! The geometry of an admitted level (R111, R112): its rows use up its size, and an address is one block number, split
into row and tag. -/

namespace Sys2Proof

/-- R111 as numbers: an admitted configuration has no zero parameter and its set size divides its size. -/
theorem admitted_iff (c : CacheConfig) :
    c.admitted = true ↔ 1 ≤ c.size ∧ 1 ≤ c.assoc ∧ 1 ≤ c.blockSize ∧ c.assoc * c.blockSize ∣ c.size := by
  simp [CacheConfig.admitted, Nat.dvd_iff_mod_eq_zero, and_assoc]

theorem numRows_mul_of_admitted {c : CacheConfig} (h : c.admitted = true) :
    c.numRows * (c.assoc * c.blockSize) = c.size := by
  obtain ⟨-, -, -, hdvd⟩ := (admitted_iff c).mp h
  exact Nat.div_mul_cancel hdvd

theorem numRows_pos_of_admitted {c : CacheConfig} (h : c.admitted = true) : 0 < c.numRows := by
  obtain ⟨hsize, -⟩ := (admitted_iff c).mp h
  have hprod : 0 < c.numRows * (c.assoc * c.blockSize) := by rw [numRows_mul_of_admitted h]; exact hsize
  exact Nat.pos_of_mul_pos_right hprod

theorem rowOf_lt_of_admitted {c : CacheConfig} (h : c.admitted = true) (a : Addr) : c.rowOf a < c.numRows :=
  Nat.mod_lt _ (numRows_pos_of_admitted h)

/-- A tag is an address divided twice, so it is at most the highest address. -/
theorem tagOf_le (c : CacheConfig) (a : Addr) : c.tagOf a ≤ 8191 := by
  have htag : c.tagOf a ≤ a.toNat := (Nat.div_le_self _ _).trans (Nat.div_le_self _ _)
  have haddr : a.toNat < 8192 := a.isLt
  omega

/-- Row and tag are the remainder and the quotient of one division, so together they are the block number. -/
theorem rowOf_tagOf_eq_iff (c : CacheConfig) (a b : Addr) :
    (c.rowOf a = c.rowOf b ∧ c.tagOf a = c.tagOf b) ↔ c.blockNumber a = c.blockNumber b := by
  constructor
  · rintro ⟨hrow, htag⟩
    have recombine (x : Addr) : c.numRows * c.tagOf x + c.rowOf x = c.blockNumber x := Nat.div_add_mod _ _
    rw [← recombine a, ← recombine b, hrow, htag]
  · intro h
    simp [CacheConfig.rowOf, CacheConfig.tagOf, h]

/-- Settles O43: the exact division gives the row count, and quotient and remainder give the split of an address. -/
theorem addressDecomposition : Obligations.AddressDecomposition :=
  ⟨fun _ h => ⟨rfl, numRows_mul_of_admitted h, numRows_pos_of_admitted h⟩,
    fun c h a => ⟨rfl, rfl, rfl, rowOf_lt_of_admitted h a, tagOf_le c a, rowOf_tagOf_eq_iff c a⟩,
    by decide⟩

end Sys2Proof
end

section
/-! The victim of a load miss (R114, R117): the row ages as a whole first, which changes no comparison of recencies. -/

namespace Sys2Proof.Machine

theorem maxRecency_aged : ∀ row : Row, row ≠ [] → row.aged.maxRecency = row.maxRecency + 1
  | [b], _ => by simp [Row.maxRecency, Row.aged]
  | b :: c :: rest, _ => by
    have ih := maxRecency_aged (c :: rest) (by simp)
    change max (b.recency + 1) (Row.aged (c :: rest)).maxRecency = max b.recency (Row.maxRecency (c :: rest)) + 1
    omega

/-- Aging every block by one leaves the choice of the oldest as it was. -/
@[simp] theorem oldest_aged (row : Row) : row.aged.oldest = row.oldest := by
  by_cases h : row = []
  · subst h; rfl
  · rw [Row.oldest, maxRecency_aged row h, Row.aged, List.findIdx_map]
    simp [Row.oldest, Function.comp_def]

/-- The index an access installs at. -/
theorem aged_install_at {row : Row} {v : Nat} (h : v < row.length) (tag : Nat) :
    (row.aged.install v tag)[v]? = some (Block.installed tag) :=
  row_install_at _ _ _ (by simpa using h)

/-- Every other index of a row that an access installs in. -/
theorem aged_install_ne {row : Row} {v k : Nat} (h : k ≠ v) (tag : Nat) :
    (row.aged.install v tag)[k]? = row[k]?.map Block.aged := by
  rw [row_install_ne _ _ _ _ h, row_aged_getElem?]

/-- Settles O45: a load that finds no match installs at the oldest block of the aged row, which is the oldest of the
row itself. -/
theorem loadMiss : Obligations.LoadMiss := by
  intro row tag hne hmiss
  have hholds : row.holds tag = false := by
    rw [Bool.eq_false_iff, ne_eq, holds_iff]
    exact fun ⟨b, hb, hmatch⟩ => hmiss b hb hmatch
  obtain ⟨old, hold, hgreatest, hfirst⟩ := oldest_spec row hne
  rw [load_of_not_holds row tag hholds, oldest_aged]
  refine ⟨rfl, by simp, row.oldest, old, hold, hgreatest, hfirst, aged_install_at (oldest_lt row hne) tag, ?_⟩
  intro k b hk hb
  simp [aged_install_ne hk tag, hb, Block.aged]

end Sys2Proof.Machine
end

section
/-! What one access may write (R124): of a row, of a level, of the state; and that no other instruction accesses a
level. -/

namespace Sys2Proof.Machine

/-- A refresh (R115) writes recencies alone, whichever index one leaves out. -/
theorem aged_refresh_getElem? {row : Row} {k : Nat} {b : Block} (hb : row[k]? = some b) (tag : Nat) :
    ∃ d, (row.aged.refresh tag)[k]? = some d ∧ d.valid = b.valid ∧ d.tag = b.tag := by
  refine ⟨if b.matchesTag tag then b.aged.refreshed else b.aged,
    by rw [row_refresh_getElem?, row_aged_getElem?, hb]; rfl, ?_, ?_⟩ <;> split <;> rfl

theorem aged_refresh_oneBlockRetagged (row : Row) (tag : Nat) : row.OneBlockRetagged (row.aged.refresh tag) :=
  ⟨by simp, 0, fun _ _ _ hb => aged_refresh_getElem? hb tag⟩

theorem aged_refresh_keepsValid (row : Row) (tag : Nat) : row.KeepsValid (row.aged.refresh tag) := by
  intro k b hb
  obtain ⟨d, hd, hvalid, -⟩ := aged_refresh_getElem? hb tag
  exact ⟨d, hd, fun h => hvalid.trans h⟩

theorem aged_install_oneBlockRetagged (row : Row) (v tag : Nat) : row.OneBlockRetagged (row.aged.install v tag) :=
  ⟨by simp, v, fun k b hk hb => ⟨b.aged, by simp [aged_install_ne hk tag, hb], rfl, rfl⟩⟩

/-- An install writes a valid block and ages the others, so it clears no valid bit. -/
theorem aged_install_keepsValid (row : Row) (v tag : Nat) : row.KeepsValid (row.aged.install v tag) := by
  intro k b hb
  by_cases hk : k = v
  · subst hk
    exact ⟨_, aged_install_at (List.getElem?_eq_some_iff.mp hb).1 tag, fun _ => rfl⟩
  · exact ⟨b.aged, by simp [aged_install_ne hk tag, hb], id⟩

/-- The two ways a load access can leave a row. -/
theorem row_load_cases (row : Row) (tag : Nat) :
    (row.load tag).2 = row.aged.refresh tag ∨ (row.load tag).2 = row.aged.install row.aged.oldest tag := by
  cases h : row.holds tag with
  | true => exact .inl (by rw [load_of_holds row tag h])
  | false => exact .inr (by rw [load_of_not_holds row tag h])

theorem row_load_oneBlockRetagged (row : Row) (tag : Nat) : row.OneBlockRetagged (row.load tag).2 := by
  obtain h | h := row_load_cases row tag <;> rw [h]
  · exact aged_refresh_oneBlockRetagged row tag
  · exact aged_install_oneBlockRetagged row _ tag

theorem row_load_keepsValid (row : Row) (tag : Nat) : row.KeepsValid (row.load tag).2 := by
  obtain h | h := row_load_cases row tag <;> rw [h]
  · exact aged_refresh_keepsValid row tag
  · exact aged_install_keepsValid row _ tag

theorem row_store_oneBlockRetagged (row : Row) (tag : Nat) : row.OneBlockRetagged (row.store tag) :=
  aged_install_oneBlockRetagged row _ tag

theorem row_store_keepsValid (row : Row) (tag : Nat) : row.KeepsValid (row.store tag) :=
  aged_install_keepsValid row _ tag

/-- The replaced row, where the level has it. -/
theorem setRow_getElem?_same {c : Cache} {r : Nat} {old : Row} (h : c.rows[r]? = some old) (new : Row) :
    (c.setRow r new).rows[r]? = some new := by
  rw [setRow_getElem?, if_pos rfl, h, Option.map_some]

theorem setRow_getElem?_ne (c : Cache) {r k : Nat} (h : k ≠ r) (new : Row) :
    (c.setRow r new).rows[k]? = c.rows[k]? := by
  rw [setRow_getElem?, if_neg h]

/-- A level keeps its valid bits when the row replaced in it keeps its own. -/
theorem setRow_keepsValid {c : Cache} {r : Nat} {new : Row} (h : (c.row r).KeepsValid new) :
    c.KeepsValid (c.setRow r new) := by
  intro k row hrow
  by_cases hk : k = r
  · subst hk
    rw [row_eq_of_getElem? c k row hrow] at h
    exact ⟨new, setRow_getElem?_same hrow new, h⟩
  · exact ⟨row, (setRow_getElem?_ne c hk new).trans hrow, fun _ b hb => ⟨b, hb, id⟩⟩

/-- What an access to row r of a level may do to the level (R124). -/
structure Cache.TouchesOneRow (c : Cache) (r : Nat) (after : Cache) : Prop where
  config : after.config = c.config
  rows : after.rows.length = c.rows.length
  others : ∀ k, k ≠ r → after.rows[k]? = c.rows[k]?
  accessed : ∀ row row' : Row, c.rows[r]? = some row → after.rows[r]? = some row' → row.OneBlockRetagged row'
  valid : c.KeepsValid after

/-- Replacing a row by one that is retagged in one block and keeps its valid bits is such an access. -/
theorem setRow_touchesOneRow {c : Cache} {r : Nat} {new : Row} (hretagged : (c.row r).OneBlockRetagged new)
    (hvalid : (c.row r).KeepsValid new) : c.TouchesOneRow r (c.setRow r new) where
  config := rfl
  rows := by simp
  others _ hk := setRow_getElem?_ne c hk new
  accessed row row' hrow hrow' := by
    obtain rfl : new = row' := Option.some.inj ((setRow_getElem?_same hrow new).symm.trans hrow')
    rwa [row_eq_of_getElem? c r row hrow] at hretagged
  valid := setRow_keepsValid hvalid

theorem loadAccess_touchesOneRow (c : Cache) (a : Addr) :
    c.TouchesOneRow (c.config.rowOf a) (c.loadAccess a).2.2 :=
  setRow_touchesOneRow (row_load_oneBlockRetagged _ _) (row_load_keepsValid _ _)

theorem storeAccess_touchesOneRow (c : Cache) (a : Addr) :
    c.TouchesOneRow (c.config.rowOf a) (c.storeAccess a).2 :=
  setRow_touchesOneRow (row_store_oneBlockRetagged _ _) (row_store_keepsValid _ _)

/-- No instruction but the load and the store accesses a level: the j either halts or retires, and every other
instruction writes registers and pc alone. -/
theorem exec_levels_of_ne_lw_sw {i : Instr} {s t : State} (hlw : ∀ ra rb imm, i ≠ .lw ra rb imm)
    (hsw : ∀ ra rb imm, i ≠ .sw ra rb imm) (h : exec i s = .next t) : t.l1 = s.l1 ∧ t.l2 = s.l2 := by
  cases i with
  | lw ra rb imm => exact absurd rfl (hlw ra rb imm)
  | sw ra rb imm => exact absurd rfl (hsw ra rb imm)
  | j target =>
    rw [exec, execJ] at h
    split at h <;> cases h <;> simp
  | _ => cases h; exact ⟨rfl, rfl⟩

/-- Settles O47: the two accesses of a level, the two of the hierarchy field by field, and the other instructions. -/
theorem anAccessTouchesOneRow : Obligations.AnAccessTouchesOneRow := by
  refine ⟨fun c a after hafter => ?_, fun s a after hafter => ?_, fun i s t => exec_levels_of_ne_lw_sw⟩
  · have touched : c.TouchesOneRow (c.config.rowOf a) after := by
      obtain rfl | rfl : after = (c.loadAccess a).2.2 ∨ after = (c.storeAccess a).2 := by simpa using hafter
      · exact loadAccess_touchesOneRow c a
      · exact storeAccess_touchesOneRow c a
    exact ⟨touched.config, touched.rows, touched.others, touched.accessed, touched.valid⟩
  · obtain rfl | rfl : after = (s.cacheLoad a).2 ∨ after = s.cacheStore a := by simpa using hafter
    · simp
    · simp

end Sys2Proof.Machine
end

section
/-! The hierarchy coordinator as a whole (R142, R143, R145, R146): the load case by case, and the events of an
instruction as data. -/

namespace Sys2Proof.Machine

@[simp] theorem classification_hit : LoadOutcome.hit.classification = .hit := rfl
@[simp] theorem classification_miss : LoadOutcome.miss.classification = .miss := rfl

/-- R146: SW comes from no load. -/
theorem classification_ne_sw (o : LoadOutcome) : o.classification ≠ .sw := by
  cases o <;> nofun

/-- The load where L1 hits: L2 is not consulted. -/
theorem cacheLoad_eq_of_l1_hit {s : State} {a : Addr} (h : (s.l1.loadAccess a).1 = .hit) :
    s.cacheLoad a = (.hit, { s with
      l1 := (s.l1.loadAccess a).2.2
      log := s.log ++ [⟨.l1, .hit, s.pc, a, s.l1.config.rowOf a⟩] }) := by
  rw [cacheLoad_of_l1_hit s a h, loadL1_eq, h]; rfl

/-- The load where L1 misses and there is no L2 to consult. -/
theorem cacheLoad_eq_of_l2_absent {s : State} {a : Addr} (h : (s.l1.loadAccess a).1 = .miss) (h2 : s.l2 = none) :
    s.cacheLoad a = (.miss, { s with
      l1 := (s.l1.loadAccess a).2.2
      log := s.log ++ [⟨.l1, .miss, s.pc, a, s.l1.config.rowOf a⟩] }) := by
  rw [cacheLoad_of_l1_miss s a h, loadL2_of_none (s.loadL1 a).2 a h2, loadL1_eq, h]; rfl

/-- The load where L1 misses and L2 answers. -/
theorem cacheLoad_eq_of_l2_consulted {s : State} {a : Addr} {c : Cache} (h : (s.l1.loadAccess a).1 = .miss)
    (h2 : s.l2 = some c) :
    s.cacheLoad a = ((c.loadAccess a).1, { s with
      l1 := (s.l1.loadAccess a).2.2
      l2 := some (c.loadAccess a).2.2
      log := s.log ++ [⟨.l1, .miss, s.pc, a, s.l1.config.rowOf a⟩,
        ⟨.l2, (c.loadAccess a).1.classification, s.pc, a, c.config.rowOf a⟩] }) := by
  rw [cacheLoad_of_l1_miss s a h, loadL2_of_some (s.loadL1 a).2 a c h2, loadL1_eq, h]
  simp [State.emit]

/-- Settles O34: the three ways a load goes through the levels. -/
theorem cacheLoadThroughTheHierarchy : Obligations.CacheLoadThroughTheHierarchy := by
  intro s a
  cases h : (s.l1.loadAccess a).1 with
  | hit => simpa [h] using cacheLoad_eq_of_l1_hit h
  | miss =>
    cases h2 : s.l2 with
    | none => simpa [h, h2] using cacheLoad_eq_of_l2_absent h h2
    | some c => simpa [h, h2] using cacheLoad_eq_of_l2_consulted h h2

/-- Settles O35: the outcome is the answer of the last level consulted. -/
theorem overallOutcomeOfALoad : Obligations.OverallOutcomeOfALoad := by
  intro s a
  cases h : (s.l1.loadAccess a).1 with
  | hit => simp [cacheLoad_eq_of_l1_hit h]
  | miss =>
    cases h2 : s.l2 with
    | none => simp [cacheLoad_eq_of_l2_absent h h2]
    | some c => simp [cacheLoad_eq_of_l2_consulted h h2]

/-- The event of an access to level c under a label (R146). -/
def State.event (s : State) (label : CacheLabel) (c : Cache) (classification : Classification) (a : Addr) : LogEvent :=
  ⟨label, classification, s.pc, a, c.config.rowOf a⟩

/-- The events of a load (R142): L1's, and after an L1 miss those of the levels behind it. -/
def State.loadEvents (s : State) (a : Addr) : List LogEvent :=
  s.event .l1 s.l1 (s.l1.loadAccess a).1.classification a ::
    if (s.l1.loadAccess a).1 = .hit then []
    else s.l2.toList.map fun c => s.event .l2 c (c.loadAccess a).1.classification a

/-- The events of a store (R144): one for every level there is. -/
def State.storeEvents (s : State) (a : Addr) : List LogEvent :=
  s.event .l1 s.l1 .sw a :: s.l2.toList.map fun c => s.event .l2 c .sw a

/-- The events of an instruction (R145). -/
def State.instrEvents (s : State) : Instr → List LogEvent
  | .lw ra _ imm => s.loadEvents (s.effAddr ra imm)
  | .sw ra _ imm => s.storeEvents (s.effAddr ra imm)
  | _ => []

theorem cacheLoad_log (s : State) (a : Addr) : (s.cacheLoad a).2.log = s.log ++ s.loadEvents a := by
  cases h : (s.l1.loadAccess a).1 with
  | hit => simp [cacheLoad_eq_of_l1_hit h, State.loadEvents, State.event, h]
  | miss =>
    cases h2 : s.l2 with
    | none => simp [cacheLoad_eq_of_l2_absent h h2, State.loadEvents, State.event, h, h2]
    | some c =>
      simp [cacheLoad_eq_of_l2_consulted h h2, State.loadEvents, State.event, h, h2]

theorem cacheStore_log (s : State) (a : Addr) : (s.cacheStore a).log = s.log ++ s.storeEvents a := by
  have hkept : (s.storeL1 a).l2 = s.l2 := rfl
  have hl1 : (s.storeL1 a).log = s.log ++ [s.event .l1 s.l1 .sw a] := rfl
  cases h2 : s.l2 with
  | none => simp [State.cacheStore, storeL2_of_none _ a (hkept.trans h2), hl1, State.storeEvents, h2]
  | some c =>
    rw [State.cacheStore, storeL2_of_some _ a c (hkept.trans h2)]
    change (s.storeL1 a).log ++ [s.event .l2 c .sw a] = _
    simp [hl1, State.storeEvents, h2]

/-- What an instruction appends to the stream: a lw and a sw what the hierarchy does, every other instruction, the j
that halts included, nothing. -/
theorem exec_log {i : Instr} {s t : State} (h : exec i s = .next t) : t.log = s.log ++ s.instrEvents i := by
  cases i with
  | lw ra rb imm => cases h; simp [State.instrEvents, cacheLoad_log]
  | sw ra rb imm => cases h; simp [State.instrEvents, cacheStore_log]
  | j target =>
    rw [exec, execJ] at h
    split at h <;> cases h <;> simp [State.instrEvents]
  | _ => cases h; exact (List.append_nil _).symm

theorem loadEvents_labels (s : State) (a : Addr) :
    (s.loadEvents a).map LogEvent.label =
      if (s.l1.loadAccess a).1 = .hit ∨ s.l2 = none then [.l1] else [.l1, .l2] := by
  cases h : (s.l1.loadAccess a).1 <;> cases h2 : s.l2 <;> simp [State.loadEvents, State.event, h, h2]

theorem storeEvents_labels (s : State) (a : Addr) :
    (s.storeEvents a).map LogEvent.label = if s.l2 = none then [.l1] else [.l1, .l2] := by
  cases h2 : s.l2 <;> simp [State.storeEvents, State.event, h2]

/-- Settles O37: the labels of a load's and of a store's events; no other instruction has any. -/
theorem eventsPerInstruction : Obligations.EventsPerInstruction := by
  intro i s t h
  refine ⟨s.instrEvents i, exec_log h, ?_⟩
  cases i with
  | lw ra rb imm => exact loadEvents_labels s _
  | sw ra rb imm => exact storeEvents_labels s _
  | _ => rfl

/-- The fields that every event of an access to address a has, whatever its classification (R146). -/
structure State.EventOf (s : State) (a : Addr) (e : LogEvent) : Prop where
  pc : e.pc = s.pc
  address : e.address = a
  l1Row : e.label = .l1 → e.row = s.l1.config.rowOf a
  l2Row : e.label = .l2 → ∃ c, s.l2 = some c ∧ e.row = c.config.rowOf a

theorem eventOf_l1 (s : State) (cl : Classification) (a : Addr) : s.EventOf a (s.event .l1 s.l1 cl a) :=
  ⟨rfl, rfl, fun _ => rfl, nofun⟩

theorem eventOf_l2 {s : State} {c : Cache} (h : s.l2 = some c) (cl : Classification) (a : Addr) :
    s.EventOf a (s.event .l2 c cl a) :=
  ⟨rfl, rfl, nofun, fun _ => ⟨c, h, rfl⟩⟩

theorem eventOf_of_mem_loadEvents {s : State} {a : Addr} {e : LogEvent} (he : e ∈ s.loadEvents a) :
    s.EventOf a e ∧ e.classification ≠ .sw := by
  obtain rfl | he := List.mem_cons.mp he
  · exact ⟨eventOf_l1 s _ a, classification_ne_sw _⟩
  · split at he
    · cases he
    · obtain ⟨c, hc, rfl⟩ := List.mem_map.mp he
      exact ⟨eventOf_l2 (Option.mem_toList.mp hc) _ a, classification_ne_sw _⟩

theorem eventOf_of_mem_storeEvents {s : State} {a : Addr} {e : LogEvent} (he : e ∈ s.storeEvents a) :
    s.EventOf a e ∧ e.classification = .sw := by
  obtain rfl | he := List.mem_cons.mp he
  · exact ⟨eventOf_l1 s _ a, rfl⟩
  · obtain ⟨c, hc, rfl⟩ := List.mem_map.mp he
    exact ⟨eventOf_l2 (Option.mem_toList.mp hc) _ a, rfl⟩

/-- Settles O38: the events of a load and of a store are events of their effective address; no other instruction has
any. -/
theorem eventFields : Obligations.EventFields := by
  intro i s t h
  refine ⟨s.instrEvents i, exec_log h, fun e he => ?_⟩
  cases i with
  | lw ra rb imm =>
    obtain ⟨⟨hpc, haddress, hl1, hl2⟩, hload⟩ := eventOf_of_mem_loadEvents he
    rw [haddress]
    exact ⟨hpc, .inl ⟨ra, rb, imm, rfl, rfl, hload⟩, hl1, hl2⟩
  | sw ra rb imm =>
    obtain ⟨⟨hpc, haddress, hl1, hl2⟩, hstore⟩ := eventOf_of_mem_storeEvents he
    rw [haddress]
    exact ⟨hpc, .inr ⟨ra, rb, imm, rfl, rfl, hstore⟩, hl1, hl2⟩
  | _ => cases he

end Sys2Proof.Machine
end

section
/-! The two branches of a running step (R212, R213): the halt check on the bits of the word, and dispatch, where every
instruction ends by retiring. -/

namespace Sys2Proof.Machine

/-- R214, R215: every instruction but the j to its own address answers, and what it answers has just been retired: R214's
`x[0] <- 0` is the end of each of them, and only the j has a branch that ends otherwise (R201). -/
theorem exec_eq_retire_of_ne_j_pc {i : Instr} {s : State} (hi : i ≠ .j s.pc) :
    ∃ (u : State) (a : Addr), exec i s = .next (u.retire a) := by
  cases i with
  | j target =>
    have hne : target ≠ s.pc := fun e => hi (congrArg Instr.j e)
    exact ⟨s, target, if_neg hne⟩
  | _ => exact ⟨_, _, rfl⟩

theorem exec_reg_zero_of_ne_j_pc {i : Instr} {s t : State} (hi : i ≠ .j s.pc) (h : exec i s = .next t) :
    t.reg 0 = 0 := by
  obtain ⟨u, a, hretire⟩ := exec_eq_retire_of_ne_j_pc hi
  rw [hretire] at h
  cases h
  simp

/-- The bits that R212 tests are those of the j to its own address. -/
theorem haltBits_iff_decode (w : Word) (pc : Addr) :
    (w.extractLsb' 13 3 = 0b010#3 ∧ w.extractLsb' 0 13 = pc) ↔ decode w = .j pc := by
  rw [← isHaltPattern_iff]
  simp [isHaltPattern, opcodeOf, targetOf]

/-- The halt branch of a running step. -/
theorem step_of_decode_eq_j_pc {s : State} (hrunning : s.halted = false) (hadmitted : s.configsAdmitted = true)
    (h : decode s.fetch = .j s.pc) : step s = .next s.halt := by
  rw [step_of_running hrunning hadmitted, if_pos ((isHaltPattern_iff _ _).mpr h)]

/-- The dispatch branch of a running step. -/
theorem step_of_decode_ne_j_pc {s : State} (hrunning : s.halted = false) (hadmitted : s.configsAdmitted = true)
    (h : decode s.fetch ≠ .j s.pc) : step s = exec (decode s.fetch) s := by
  rw [step_of_running hrunning hadmitted, if_neg (mt (isHaltPattern_iff _ _).mp h)]

/-- Settles O12: the halt branch answers by itself, the dispatch branch because every dispatched instruction retires,
which forces x[0] to 0 and leaves the run status alone. -/
theorem stepIsTotal : Obligations.StepIsTotal := by
  intro s hrunning hadmitted w
  by_cases hbits : w.extractLsb' 13 3 = 0b010#3 ∧ w.extractLsb' 0 13 = s.pc
  · have hstep := step_of_decode_eq_j_pc hrunning hadmitted ((haltBits_iff_decode w s.pc).mp hbits)
    refine ⟨s.halt, hstep, ?_⟩
    rw [if_pos hbits]
    rfl
  · have hdispatch : decode w ≠ .j s.pc := mt (haltBits_iff_decode w s.pc).mpr hbits
    obtain ⟨u, a, hexec⟩ := exec_eq_retire_of_ne_j_pc hdispatch
    refine ⟨u.retire a, (step_of_decode_ne_j_pc hrunning hadmitted hdispatch).trans hexec, ?_⟩
    rw [if_neg hbits]
    exact ⟨hexec, exec_reg_zero_of_ne_j_pc hdispatch hexec, (exec_halted_of_ne_j_pc hdispatch hexec).trans hrunning⟩

/-- Settles O13: the fact of exec, carried to a step by its two branches; the halt branch keeps the invariant's x[0]. -/
theorem registerZeroForcedByEveryDispatch : Obligations.RegisterZeroForcedByEveryDispatch := by
  refine ⟨fun i s t => exec_reg_zero_of_ne_j_pc, fun s t h hdispatch => ?_, fun s t h hhalt => ?_⟩
  · obtain ⟨-, -, ⟨hhalt, -⟩ | ⟨-, hexec⟩⟩ := step_cases h
    · exact absurd hhalt hdispatch
    · exact exec_reg_zero_of_ne_j_pc hdispatch hexec
  · obtain ⟨-, -, ⟨-, rfl⟩ | ⟨hdispatch, -⟩⟩ := step_cases h
    · exact ⟨rfl, fun hinv => (halt_reg s 0).trans hinv.zero⟩
    · exact absurd hhalt hdispatch

/-- Settles O11: the two branches of a running step, told apart by the word's bits. -/
theorem haltCheckPrecedesDispatch : Obligations.HaltCheckPrecedesDispatch := by
  intro s hrunning hadmitted w
  split
  next hbits => exact step_of_decode_eq_j_pc hrunning hadmitted ((haltBits_iff_decode w s.pc).mp hbits)
  next hbits => exact step_of_decode_ne_j_pc hrunning hadmitted (mt (haltBits_iff_decode w s.pc).mpr hbits)

end Sys2Proof.Machine
end

section
/-! The opcode map both ways (R80 to R90): a word and its instruction determine each other, format by format. -/

namespace Sys2Proof

theorem decode_wordRR (ra rb rd : Reg) (func : BitVec 4) : decode (wordRR ra rb rd func) = decodeRR func ra rb rd := by
  simp [decode]

/-- The encoder writes the opcode and the function code by which the decoder finds the constructor. -/
theorem decode_encode (i : Instr) : decode (encode i) = i := by
  cases i with
  | addi ra rb imm | lw ra rb imm | sw ra rb imm | jeq ra rb imm | slti ra rb imm => simp [encode, decode]
  | j target | jal target => simp [encode, decode]
  | _ => exact decode_wordRR _ _ _ _

/-- R88, R89: the function code is not lost, whichever of the sixteen it is. -/
theorem encode_decodeRR (func : BitVec 4) (ra rb rd : Reg) : encode (decodeRR func ra rb rd) = wordRR ra rb rd func := by
  unfold decodeRR
  split
  case h_16 =>
    have hlast : func = 0b1111#4 := by
      revert func
      decide
    rw [hlast]
    rfl
  all_goals rfl

theorem wordRI_of_opcode {w : Word} {op : BitVec 3} (h : opcodeOf w = op) : wordRI op (raOf w) (rbOf w) (immOf w) = w :=
  h ▸ wordRI_fields w

theorem wordCT_of_opcode {w : Word} {op : BitVec 3} (h : opcodeOf w = op) : wordCT op (targetOf w) = w :=
  h ▸ wordCT_fields w

/-- R87, R89: the opcode is not lost, and the other bits are the fields of its format. -/
theorem encode_decode (w : Word) : encode (decode w) = w := by
  unfold decode
  split
  case h_1 h => rw [encode_decodeRR, wordRR_fields w h]
  case h_3 h | h_4 h => exact wordCT_of_opcode h
  all_goals exact wordRI_of_opcode ‹_›

theorem wellFormed_eq_true (i : Instr) : i.wellFormed = true := by
  cases i <;> rfl

/-- Settles O6: every instruction comes back from its word, so every well-formed one does. -/
theorem decodeEncodeAgree : Obligations.DecodeEncodeAgree := fun i _ => decode_encode i

/-- Settles O7: every word comes back from its instruction. -/
theorem encodeDecodeAgree : Obligations.EncodeDecodeAgree := fun w => ⟨encode_decode w, wellFormed_eq_true _⟩

/-- The numeric decoder as one condition (R80). -/
theorem decodeTableWord_eq (nbits w : Nat) :
    decodeTableWord nbits w = if 16 < nbits ∨ 65536 ≤ w then none else some (decode (BitVec.ofNat 16 w)) := by
  by_cases hbits : 16 < nbits
  · simp [decodeTableWord, decodeBits, hbits]
  · by_cases hw : 65536 ≤ w <;> simp [decodeTableWord, decodeBits, hbits, hw]

/-- Settles O9: the number of a word is below 2^16, and reading it as a word gives the word back. -/
theorem numericDecoderTakesOneCell : Obligations.NumericDecoderTakesOneCell := by
  refine ⟨fun i => ?_, fun nbits w => ?_⟩
  · have hlt : (encode i).toNat < 65536 := (encode i).isLt
    rw [decodeTableWord_eq, if_neg (by omega), BitVec.ofNat_toNat, BitVec.setWidth_eq, decode_encode]
  · simp only [decodeTableWord_eq, ite_eq_left_iff, reduceCtorEq, imp_false, not_not]

theorem opcodeOf_eq (w : Word) : w.extractLsb' 13 3 = opcodeOf w := rfl
theorem funcOf_eq (w : Word) : w.extractLsb' 0 4 = funcOf w := rfl

theorem decode_of_opcode_zero {w : Word} (h : opcodeOf w = 0b000#3) :
    decode w = decodeRR (funcOf w) (raOf w) (rbOf w) (rdOf w) := by
  rw [decode, h]
  rfl

/-- Settles O8: the seven rows of R87 by the opcode, and the sixteen of R88 by the function code. -/
theorem opcodeMapSelects : Obligations.OpcodeMapSelects := by
  intro w ra rb rd imm target
  rw [opcodeOf_eq, funcOf_eq]
  refine ⟨?_, ?_, ?_, ?_, ?_, ?_, ?_, fun hop => ?_⟩
  case refine_8 =>
    rw [decode_of_opcode_zero hop]
    refine ⟨?_, ?_, ?_, ?_, ?_, ?_, ?_, ?_, ?_, ?_, ?_, ?_, ?_, ?_, ?_, ?_⟩
    all_goals
      intro hfunc
      rw [hfunc]
      rfl
  all_goals
    intro hop
    rw [decode, hop]
    rfl

/-- Settles O5: the decoder run on the ten words. -/
theorem sampleWordsDecode : Obligations.SampleWordsDecode := by
  unfold Obligations.SampleWordsDecode
  decide

end Sys2Proof
end

section
/-! One row as an access leaves it (R114 to R121): its blocks, the tag it holds, and the two victims. -/

namespace Sys2Proof.Machine

/-- R115, R117, R119: an access ages the blocks of a row, but for those that end up most recent with its tag. -/
structure Row.AccessedWith (row : Row) (tag : Nat) (after : Row) : Prop where
  length : after.length = row.length
  blocks : ∀ d ∈ after, d = Block.installed tag ∨ ∃ b ∈ row, d = b.aged

/-- R115: a block that is refreshed on a match is what an install of that tag would leave. -/
theorem refreshed_eq_installed {b : Block} {tag : Nat} (h : b.matchesTag tag = true) :
    b.refreshed = Block.installed tag := by
  obtain ⟨hvalid, htag⟩ := (matchesTag_iff b tag).mp h
  simp [Block.refreshed, Block.installed, hvalid, htag]

theorem aged_install_accessedWith (row : Row) (v tag : Nat) : row.AccessedWith tag (row.aged.install v tag) where
  length := by simp
  blocks d hd := by
    obtain hd | rfl := List.mem_or_eq_of_mem_set hd
    · obtain ⟨b, hb, rfl⟩ := (mem_row_aged row d).mp hd
      exact .inr ⟨b, hb, rfl⟩
    · exact .inl rfl

theorem aged_refresh_accessedWith (row : Row) (tag : Nat) : row.AccessedWith tag (row.aged.refresh tag) where
  length := by simp
  blocks d hd := by
    obtain ⟨c, hc, rfl⟩ := List.mem_map.mp hd
    obtain ⟨b, hb, rfl⟩ := (mem_row_aged row c).mp hc
    split
    next hmatch => exact .inl (refreshed_eq_installed hmatch)
    next => exact .inr ⟨b, hb, rfl⟩

theorem row_load_accessedWith (row : Row) (tag : Nat) : row.AccessedWith tag (row.load tag).2 := by
  obtain h | h := row_load_cases row tag <;> rw [h]
  · exact aged_refresh_accessedWith row tag
  · exact aged_install_accessedWith row _ tag

theorem row_store_accessedWith (row : Row) (tag : Nat) : row.AccessedWith tag (row.store tag) :=
  aged_install_accessedWith row _ tag

/-- R121 is kept by every access: the blocks that are still invalid have aged alike, and a new one is valid with
recency 0. -/
theorem invalidOldest_of_accessedWith {row after : Row} {tag : Nat} (h : row.AccessedWith tag after)
    (hrow : row.invalidOldest) : after.invalidOldest := by
  intro d hd hinvalid e he
  obtain rfl | ⟨b, hb, rfl⟩ := h.blocks d hd
  · simp at hinvalid
  obtain rfl | ⟨c, hc, rfl⟩ := h.blocks e he
  · simp
  · simpa using hrow b hb hinvalid c hc

theorem tag_le_of_accessedWith {row after : Row} {tag n : Nat} (h : row.AccessedWith tag after) (htag : tag ≤ n)
    (hrow : ∀ b ∈ row, b.tag ≤ n) : ∀ d ∈ after, d.tag ≤ n := by
  intro d hd
  obtain rfl | ⟨b, hb, rfl⟩ := h.blocks d hd
  · exact htag
  · exact hrow b hb

theorem holds_aged_install {row : Row} {v : Nat} (h : v < row.length) (tag : Nat) :
    (row.aged.install v tag).holds tag = true :=
  (holds_iff _ _).mpr ⟨_, List.mem_of_getElem? (aged_install_at h tag), rfl, rfl⟩

/-- R116, R117: after a load of a tag the row holds it, whether it did before or not. -/
theorem holds_row_load {row : Row} (hne : row ≠ []) (tag : Nat) : (row.load tag).2.holds tag = true := by
  cases h : row.holds tag with
  | true =>
    obtain ⟨b, hb, hvalid, htag⟩ := (holds_iff row tag).mp h
    obtain ⟨k, hk⟩ := List.mem_iff_getElem?.mp hb
    obtain ⟨d, hd, hdvalid, hdtag⟩ := aged_refresh_getElem? hk tag
    rw [load_of_holds row tag h]
    exact (holds_iff _ _).mpr ⟨d, List.mem_of_getElem? hd, hdvalid.trans hvalid, hdtag.trans htag⟩
  | false =>
    rw [load_of_not_holds row tag h, oldest_aged]
    exact holds_aged_install (oldest_lt row hne) tag

/-- Aging every block by one leaves the choice of a store's victim as it was. -/
@[simp] theorem storeVictim_aged (row : Row) : row.aged.storeVictim = row.storeVictim := by
  rw [Row.storeVictim, oldest_aged]
  simp [Row.storeVictim, Row.aged, List.findIdx_map, Function.comp_def]

/-- R119: after a store of a tag the row holds it. -/
theorem holds_row_store {row : Row} (hne : row ≠ []) (tag : Nat) : (row.store tag).holds tag = true := by
  rw [Row.store, storeVictim_aged]
  exact holds_aged_install (storeVictim_lt row hne) tag

/-- Settles O44: a load that matches refreshes the aged row. -/
theorem loadHit : Obligations.LoadHit := by
  intro row tag hmatch
  rw [load_of_holds row tag ((holds_iff row tag).mpr hmatch)]
  refine ⟨rfl, by simp, fun k b hb => ?_⟩
  simp [hb, matchesTag_iff, Block.refreshed, Block.aged]

/-- Settles O46: a store installs at the store victim of the aged row, which is that of the row itself. -/
theorem storeInstalls : Obligations.StoreInstalls := by
  intro row tag hne
  have hlt := storeVictim_lt row hne
  rw [Row.store, storeVictim_aged]
  refine ⟨by simp, row.storeVictim, row[row.storeVictim], List.getElem?_eq_getElem hlt, fun hinvalid => ?_,
    fun hvalid => ?_, aged_install_at hlt tag, fun k b hk hb => ?_⟩
  · obtain ⟨old, hold, hspec⟩ := storeVictim_of_invalid row hinvalid
    rwa [(List.getElem?_eq_some_iff.mp hold).2]
  · obtain ⟨old, hold, hspec⟩ := oldest_spec row hne
    rw [← storeVictim_of_valid row hvalid] at hold hspec
    rwa [(List.getElem?_eq_some_iff.mp hold).2]
  · simp [aged_install_ne hk tag, hb, Block.aged]

/-- R121: where invalid blocks are the oldest, the first oldest block is the first invalid one: it is invalid because no
valid block is oldest, and no later because all invalid blocks are equally old. -/
theorem oldest_eq_storeVictim {row : Row} (h : row.invalidOldest) : row.oldest = row.storeVictim := by
  by_cases hinvalid : ∃ b ∈ row, b.valid = false
  · obtain ⟨inv, hinv, hinvInvalid, hfirstInvalid⟩ := storeVictim_of_invalid row hinvalid
    have hmem := List.mem_of_getElem? hinv
    obtain ⟨old, hold, hgreatest, hfirstOldest⟩ := oldest_spec row (List.ne_nil_of_mem hmem)
    obtain ⟨hequal, hsmaller⟩ := h inv hmem hinvInvalid old (List.mem_of_getElem? hold)
    have holdest : inv.recency ≤ old.recency := hgreatest inv hmem
    have holdInvalid : old.valid = false := by
      rw [Bool.eq_false_iff]
      intro hvalid
      have := hsmaller hvalid
      omega
    obtain hlt | heq | hgt := Nat.lt_trichotomy row.oldest row.storeVictim
    · have := hfirstInvalid _ old hlt hold
      simp [holdInvalid] at this
    · exact heq
    · have := hfirstOldest _ inv hgt hinv
      have := hequal holdInvalid
      omega
  · exact (storeVictim_of_valid row (by simpa using hinvalid)).symm

/-- Settles O49: aging changes neither victim, and the two are one where invalid blocks are the oldest. -/
theorem loadAndStoreVictimsAgree : Obligations.LoadAndStoreVictimsAgree := by
  intro row h
  rw [oldest_aged, storeVictim_aged, oldest_eq_storeVictim h]
  exact ⟨rfl, storeVictim_of_invalid row⟩

end Sys2Proof.Machine
end

section
/-! The LRU invariant (40_cache_engine.md section 4, property (b)): along load misses a row is the tags loaded last, by
rising recency, and blocks that are older than all of them. -/

namespace Sys2Proof.Machine

/-- What load misses leave of the tags they loaded, the latest first: each block is one older than the next. -/
def recentBlocks : List Nat → Row
  | [] => []
  | tag :: tags => Block.installed tag :: (recentBlocks tags).aged

/-- A row whose latest load misses were those of the tags, latest first: in some order it is their blocks and blocks
that are at least as old as there are such tags. -/
def Row.HasRecent (row : Row) (recent : List Nat) : Prop :=
  ∃ older : Row, row.Perm (recentBlocks recent ++ older) ∧ ∀ b ∈ older, recent.length ≤ b.recency

@[simp] theorem recentBlocks_length (recent : List Nat) : (recentBlocks recent).length = recent.length := by
  induction recent with
  | nil => rfl
  | cons tag tags ih => simp [recentBlocks, ih]

theorem recency_lt_of_mem_recentBlocks {recent : List Nat} {b : Block} (h : b ∈ recentBlocks recent) :
    b.recency < recent.length := by
  induction recent generalizing b with
  | nil => cases h
  | cons tag tags ih =>
    obtain rfl | h := List.mem_cons.mp h
    · simp
    · obtain ⟨d, hd, rfl⟩ := (mem_row_aged _ b).mp h
      simpa using ih hd

theorem tag_mem_of_mem_recentBlocks {recent : List Nat} {b : Block} (h : b ∈ recentBlocks recent) :
    b.tag ∈ recent := by
  induction recent generalizing b with
  | nil => cases h
  | cons tag tags ih =>
    obtain rfl | h := List.mem_cons.mp h
    · simp
    · obtain ⟨d, hd, rfl⟩ := (mem_row_aged _ b).mp h
      have : d.tag ∈ tags := ih hd
      exact List.mem_cons_of_mem _ this

theorem holds_recentBlocks {recent : List Nat} {tag : Nat} (h : tag ∈ recent) :
    (recentBlocks recent).holds tag = true := by
  induction recent with
  | nil => cases h
  | cons first tags ih =>
    obtain rfl | h := List.mem_cons.mp h
    · exact (holds_iff _ _).mpr ⟨_, List.mem_cons_self, rfl, rfl⟩
    · obtain ⟨b, hb, hmatch⟩ := (holds_iff _ _).mp ((holds_aged _ _).trans (ih h))
      exact (holds_iff _ _).mpr ⟨b, List.mem_cons_of_mem _ hb, hmatch⟩

/-- The first of the tags has the oldest of their blocks. -/
theorem recentBlocks_concat (recent : List Nat) (first : Nat) :
    recentBlocks (recent ++ [first]) = recentBlocks recent ++ [⟨true, first, recent.length⟩] := by
  induction recent with
  | nil => rfl
  | cons tag tags ih => simp [recentBlocks, ih, Row.aged, Block.aged]

/-- R117 as an eviction: a load miss takes out one block of greatest recency, ages the others and adds its own. -/
theorem exists_evicted_of_miss {row : Row} {tag : Nat} (hne : row ≠ []) (hmiss : (row.load tag).1 = .miss) :
    ∃ (old : Block) (kept : Row), row.Perm (old :: kept) ∧ (∀ b ∈ row, b.recency ≤ old.recency) ∧
      (row.load tag).2.Perm (Block.installed tag :: kept.aged) := by
  have hholds : row.holds tag = false := by simpa using hmiss
  have hlt := oldest_lt row hne
  obtain ⟨old, hold, hgreatest, -⟩ := oldest_spec row hne
  refine ⟨old, row.eraseIdx row.oldest, ?_, hgreatest, ?_⟩
  · rw [← (List.getElem?_eq_some_iff.mp hold).2]
    exact (List.getElem_cons_eraseIdx_perm hlt).symm
  · rw [load_of_not_holds row tag hholds, oldest_aged, Row.install, Row.aged, Row.aged, ← List.eraseIdx_map]
    exact List.set_perm_cons_eraseIdx (by simpa using hlt) _

/-- A load miss in a row that still has an older block evicts an older one and makes its tag the latest. -/
theorem hasRecent_load {row : Row} {recent : List Nat} {tag : Nat} (h : row.HasRecent recent)
    (hroom : recent.length < row.length) (hmiss : (row.load tag).1 = .miss) :
    (row.load tag).2.HasRecent (tag :: recent) := by
  obtain ⟨older, hperm, holder⟩ := h
  have hlength : row.length = recent.length + older.length := by simpa using hperm.length_eq
  obtain ⟨x, hx⟩ := List.exists_mem_of_length_pos (l := older) (by omega)
  obtain ⟨old, kept, hkept, hgreatest, hafter⟩ :=
    exists_evicted_of_miss (List.ne_nil_of_length_pos (by omega)) hmiss
  have hold : old ∈ older := by
    obtain hrecent | hold := List.mem_append.mp (hperm.mem_iff.mp (hkept.mem_iff.mpr List.mem_cons_self))
    · have h1 := recency_lt_of_mem_recentBlocks hrecent
      have h2 := holder x hx
      have h3 := hgreatest x (hperm.mem_iff.mpr (List.mem_append_right _ hx))
      omega
    · exact hold
  have hsplit : kept.Perm (recentBlocks recent ++ older.erase old) := by
    refine List.Perm.cons_inv (a := old) (hkept.symm.trans (hperm.trans ?_))
    exact ((List.perm_cons_erase hold).append_left _).trans List.perm_middle
  refine ⟨Row.aged (older.erase old), hafter.trans ?_, fun b hb => ?_⟩
  · simpa [recentBlocks, Row.aged] using hsplit.map Block.aged
  · obtain ⟨d, hd, rfl⟩ := (mem_row_aged _ b).mp hb
    simpa using holder d (List.mem_of_mem_erase hd)

theorem row_loadAll_cons (row : Row) (tag : Nat) (tags : List Nat) :
    row.loadAll (tag :: tags) =
      ((row.load tag).1 :: ((row.load tag).2.loadAll tags).1, ((row.load tag).2.loadAll tags).2) := rfl

theorem row_loadAll_append (row : Row) (xs ys : List Nat) :
    row.loadAll (xs ++ ys) =
      ((row.loadAll xs).1 ++ ((row.loadAll xs).2.loadAll ys).1, ((row.loadAll xs).2.loadAll ys).2) := by
  induction xs generalizing row with
  | nil => rfl
  | cons x xs ih => simp [row_loadAll_cons, ih]

@[simp] theorem row_loadAll_length (row : Row) (tags : List Nat) : (row.loadAll tags).2.length = row.length := by
  induction tags generalizing row with
  | nil => rfl
  | cons tag tags ih => simp [row_loadAll_cons, ih]

/-- Load misses that leave room accumulate, the latest first. -/
theorem hasRecent_loadAll {row : Row} {recent tags : List Nat} (h : row.HasRecent recent)
    (hmiss : ∀ o ∈ (row.loadAll tags).1, o = .miss) (hroom : recent.length + tags.length ≤ row.length) :
    (row.loadAll tags).2.HasRecent (tags.reverse ++ recent) := by
  induction tags generalizing row recent with
  | nil => exact h
  | cons tag tags ih =>
    obtain ⟨hfirst, hrest⟩ := List.forall_mem_cons.mp hmiss
    simp only [List.length_cons] at hroom
    have := ih (hasRecent_load h (by omega) hfirst) hrest (by simp; omega)
    simpa [row_loadAll_cons] using this

theorem hasRecent_nil (row : Row) : row.HasRecent [] := ⟨row, .refl _, by simp⟩

/-- As many load misses as the row has blocks, or fewer, are all among the latest, whatever the row held. -/
theorem hasRecent_of_misses {row : Row} {tags : List Nat} (hmiss : ∀ o ∈ (row.loadAll tags).1, o = .miss)
    (hroom : tags.length ≤ row.length) : (row.loadAll tags).2.HasRecent tags.reverse := by
  simpa using hasRecent_loadAll (hasRecent_nil row) hmiss (by simpa using hroom)

theorem load_hit_of_hasRecent {row : Row} {recent : List Nat} {tag : Nat} (h : row.HasRecent recent)
    (htag : tag ∈ recent) : (row.load tag).1 = .hit := by
  obtain ⟨older, hperm, -⟩ := h
  obtain ⟨b, hb, hmatch⟩ := (holds_iff _ _).mp (holds_recentBlocks htag)
  have hholds : row.holds tag = true :=
    (holds_iff _ _).mpr ⟨b, hperm.mem_iff.mpr (List.mem_append_left _ hb), hmatch⟩
  simp [hholds]

/-- In a row that is full of the latest tags, one more load miss evicts the first of them. -/
theorem load_first_miss_of_full {row : Row} {recent : List Nat} {first tag : Nat}
    (h : row.HasRecent (recent ++ [first])) (hfull : row.length = recent.length + 1)
    (hmiss : (row.load tag).1 = .miss) (hnew : first ∉ tag :: recent) : ((row.load tag).2.load first).1 = .miss := by
  obtain ⟨older, hperm, -⟩ := h
  have hlength : row.length = (recent.length + 1) + older.length := by simpa using hperm.length_eq
  obtain rfl : older = [] := List.eq_nil_of_length_eq_zero (by omega)
  rw [recentBlocks_concat, List.append_nil] at hperm
  obtain ⟨old, kept, hkept, hgreatest, hafter⟩ :=
    exists_evicted_of_miss (List.ne_nil_of_length_pos (by omega)) hmiss
  obtain rfl : old = ⟨true, first, recent.length⟩ := by
    obtain hrecent | hold := List.mem_append.mp (hperm.mem_iff.mp (hkept.mem_iff.mpr List.mem_cons_self))
    · have h1 := recency_lt_of_mem_recentBlocks hrecent
      have h2 := hgreatest ⟨true, first, recent.length⟩ (hperm.mem_iff.mpr (by simp))
      simp only at h2
      omega
    · simpa using hold
  have hsplit : kept.Perm (recentBlocks recent) :=
    List.Perm.cons_inv (hkept.symm.trans (hperm.trans List.perm_append_comm))
  have hblocks : (row.load tag).2.Perm (recentBlocks (tag :: recent)) := hafter.trans ((hsplit.map Block.aged).cons _)
  have hholds : (row.load tag).2.holds first = false := by
    rw [Bool.eq_false_iff, ne_eq, holds_iff]
    rintro ⟨b, hb, -, rfl⟩
    exact hnew (tag_mem_of_mem_recentBlocks (hblocks.mem_iff.mp hb))
  rw [load_of_not_holds _ _ hholds]

/-- Settles O51: by the misses before the last one the row holds nothing but their tags, and the last evicts the first.
A row without blocks misses always. -/
theorem lruInvariant : Obligations.LruInvariant := by
  intro row tags _ hdistinct hreplicate
  have hmiss : ∀ o ∈ (row.loadAll tags).1, o = .miss := (List.eq_replicate_iff.mp hreplicate).2
  refine ⟨fun hroom tag htag => ?_, fun first rest htags hone => ?_⟩
  · exact load_hit_of_hasRecent (hasRecent_of_misses hmiss hroom) (List.mem_reverse.mpr htag)
  · subst htags
    obtain rfl | ⟨mid, last, rfl⟩ := List.eq_nil_or_concat' rest
    · have hempty : row = [] := List.eq_nil_of_length_eq_zero (by simpa using hone.symm)
      subst hempty
      rfl
    · have hnew : first ∉ mid ++ [last] := (List.nodup_cons.mp hdistinct).1
      rw [← List.cons_append] at hmiss ⊢
      rw [row_loadAll_append] at hmiss ⊢
      obtain ⟨hfront, hlast⟩ := List.forall_mem_append.mp hmiss
      have hlength : row.length = mid.length + 1 := by simpa using hone.symm
      have hrecent := hasRecent_of_misses hfront (by simp [hlength])
      rw [List.reverse_cons] at hrecent
      exact load_first_miss_of_full hrecent (by simp [hlength]) (hlast _ (by simp [row_loadAll_cons]))
        (by simpa [and_comm] using hnew)

end Sys2Proof.Machine
end

section
/-! One level in its shape (R111, R112, R121): an access is that of one row, and keeps the shape. -/

namespace Sys2Proof.Machine

/-- Settles O52: the level's access to the row it holds at the address's index; it hits where that row holds the tag. -/
theorem accessesFollowTheRowOfTheAddress : Obligations.AccessesFollowTheRowOfTheAddress := by
  intro c a row r tag hrow
  have hload : c.loadAccess a = ((row.load tag).1, r, c.setRow r (row.load tag).2) := by
    rw [← row_eq_of_getElem? c r row hrow]
    exact loadAccess_eq c a
  have hstore : c.storeAccess a = (r, c.setRow r (row.store tag)) := by
    rw [← row_eq_of_getElem? c r row hrow]
    exact storeAccess_eq c a
  refine ⟨?_, hload, hstore⟩
  rw [hload, ← holds_iff]
  simp

theorem rowOf_lt_length_of_inv {c : Cache} (h : c.Inv) (a : Addr) : c.config.rowOf a < c.rows.length :=
  h.rowCount ▸ rowOf_lt_of_admitted h.admitted a

theorem row_mem_of_inv {c : Cache} (h : c.Inv) (a : Addr) : c.row (c.config.rowOf a) ∈ c.rows := by
  have hlt := rowOf_lt_length_of_inv h a
  rw [row_eq_of_getElem? c _ _ (List.getElem?_eq_getElem hlt)]
  exact List.getElem_mem hlt

theorem row_ne_nil_of_inv {c : Cache} (h : c.Inv) (a : Addr) : c.row (c.config.rowOf a) ≠ [] := by
  obtain ⟨-, hassoc, -⟩ := (admitted_iff c.config).mp h.admitted
  have hlength := h.blockCount _ (row_mem_of_inv h a)
  exact List.ne_nil_of_length_pos (by omega)

theorem forall_mem_setRow {c : Cache} {new : Row} {P : Row → Prop} (hall : ∀ row ∈ c.rows, P row) (hnew : P new)
    (r : Nat) : ∀ row ∈ (c.setRow r new).rows, P row := by
  intro row hrow
  obtain hrow | rfl := List.mem_or_eq_of_mem_set hrow
  · exact hall row hrow
  · exact hnew

/-- The shape of a level is that of its rows, so an access to the row of an address keeps it. -/
theorem inv_setRow {c : Cache} (h : c.Inv) {a : Addr} {new : Row}
    (hnew : (c.row (c.config.rowOf a)).AccessedWith (c.config.tagOf a) new) :
    (c.setRow (c.config.rowOf a) new).Inv := by
  have hmem := row_mem_of_inv h a
  exact {
    admitted := h.admitted
    rowCount := by simpa using h.rowCount
    blockCount := forall_mem_setRow h.blockCount (hnew.length.trans (h.blockCount _ hmem)) _
    tagBound := forall_mem_setRow h.tagBound (tag_le_of_accessedWith hnew (tagOf_le _ a) (h.tagBound _ hmem)) _
    invalidOldest := forall_mem_setRow h.invalidOldest (invalidOldest_of_accessedWith hnew (h.invalidOldest _ hmem)) _ }

theorem loadAccess_inv {c : Cache} (h : c.Inv) (a : Addr) : (c.loadAccess a).2.2.Inv :=
  inv_setRow h (row_load_accessedWith _ _)

theorem storeAccess_inv {c : Cache} (h : c.Inv) (a : Addr) : (c.storeAccess a).2.Inv :=
  inv_setRow h (row_store_accessedWith _ _)

/-- A load of an address hits when a row that holds its tag has just been put in its place. -/
theorem setRow_loadAccess_hit {c : Cache} (h : c.Inv) {a : Addr} {new : Row}
    (hnew : new.holds (c.config.tagOf a) = true) : ((c.setRow (c.config.rowOf a) new).loadAccess a).1 = .hit := by
  rw [loadAccess_eq, setRow_config, row_setRow _ _ _ (rowOf_lt_length_of_inv h a)]
  simp [hnew]

/-- R147(d): right after a store access to an address a load of it hits. -/
theorem loadAccess_hit_of_storeAccess {c : Cache} (h : c.Inv) (a : Addr) :
    ((c.storeAccess a).2.loadAccess a).1 = .hit :=
  setRow_loadAccess_hit h (holds_row_store (row_ne_nil_of_inv h a) _)

/-- Settles O50: addresses of one block have one row and one tag, and after a load the row holds the tag. -/
theorem repeatedLoadHits : Obligations.RepeatedLoadHits := by
  intro c a b h hblock
  obtain ⟨hrow, htag⟩ := (rowOf_tagOf_eq_iff c.config a b).mpr hblock
  rw [loadAccess_eq c a, hrow, htag]
  exact setRow_loadAccess_hit h (holds_row_load (row_ne_nil_of_inv h b) _)

end Sys2Proof.Machine
end

section
/-! What a step does with memory, the levels and the launch parameters, once; and the invariants that follow. -/

namespace Sys2Proof.Machine

/-- What an instruction may do to one level (R124): nothing, a load access or a store access. -/
inductive Cache.Accessed : Cache → Cache → Prop where
  | unchanged (c : Cache) : Cache.Accessed c c
  | load (c : Cache) (a : Addr) : Cache.Accessed c (c.loadAccess a).2.2
  | store (c : Cache) (a : Addr) : Cache.Accessed c (c.storeAccess a).2

theorem config_of_accessed {c d : Cache} (h : c.Accessed d) : d.config = c.config := by
  cases h <;> rfl

theorem inv_of_accessed {c d : Cache} (h : c.Accessed d) (hc : c.Inv) : d.Inv := by
  cases h with
  | unchanged => exact hc
  | load a => exact loadAccess_inv hc a
  | store a => exact storeAccess_inv hc a

theorem keepsValid_of_accessed {c d : Cache} (h : c.Accessed d) : c.KeepsValid d := by
  cases h with
  | unchanged => exact fun r row hrow => ⟨row, hrow, fun k b hb => ⟨b, hb, id⟩⟩
  | load a => exact (loadAccess_touchesOneRow c a).valid
  | store a => exact (storeAccess_touchesOneRow c a).valid

/-- What an instruction may do to memory, the levels and the setting (R6, R28, R31): at most one cell is written, and
each level is accessed at most once. -/
structure State.StoresStep (s t : State) : Prop where
  mem : t.mem = s.mem ∨ ∃ a v, t.mem = s.mem.write a v
  l1 : s.l1.Accessed t.l1
  l2 : Option.Rel Cache.Accessed s.l2 t.l2
  setting : t.loadHitReadsMemory = s.loadHitReadsMemory

theorem accessed_level2_unchanged (l2 : Option Cache) : Option.Rel Cache.Accessed l2 l2 := by
  cases l2 with
  | none => exact .none
  | some c => exact .some (.unchanged c)

theorem storesStep_of_eq {s t : State} (hmem : t.mem = s.mem) (h1 : t.l1 = s.l1) (h2 : t.l2 = s.l2)
    (hset : t.loadHitReadsMemory = s.loadHitReadsMemory) : s.StoresStep t where
  mem := .inl hmem
  l1 := h1 ▸ .unchanged _
  l2 := h2 ▸ accessed_level2_unchanged _
  setting := hset

/-- R142: L2 is consulted where L1 misses. -/
theorem accessed_cacheLoad_l2 (s : State) (a : Addr) : Option.Rel Cache.Accessed s.l2 (s.cacheLoad a).2.l2 := by
  rw [cacheLoad_l2]
  split
  · exact accessed_level2_unchanged s.l2
  · cases s.l2 with
    | none => exact .none
    | some c => exact .some (.load c a)

theorem accessed_cacheStore_l2 (s : State) (a : Addr) : Option.Rel Cache.Accessed s.l2 (s.cacheStore a).l2 := by
  rw [cacheStore_l2]
  cases s.l2 with
  | none => exact .none
  | some c => exact .some (.store c a)

/-- The load goes through the hierarchy, the store writes a cell as well, and every other instruction leaves all of it
alone. -/
theorem exec_storesStep {i : Instr} {s t : State} (h : exec i s = .next t) : s.StoresStep t := by
  cases i with
  | lw ra rb imm =>
    cases h
    exact {
      mem := .inl (by simp)
      l1 := by simpa using Cache.Accessed.load s.l1 _
      l2 := by simpa using accessed_cacheLoad_l2 s _
      setting := by simp }
  | sw ra rb imm =>
    cases h
    exact {
      mem := .inr ⟨s.effAddr ra imm, s.reg rb, by simp⟩
      l1 := by simpa using Cache.Accessed.store s.l1 _
      l2 := by simpa using accessed_cacheStore_l2 s _
      setting := by simp }
  | j target =>
    rw [exec, execJ] at h
    split at h <;> cases h <;> exact storesStep_of_eq rfl rfl rfl rfl
  | _ => cases h; exact storesStep_of_eq rfl rfl rfl rfl

theorem step_storesStep {s t : State} (h : step s = .next t) : s.StoresStep t := by
  obtain ⟨-, -, ⟨-, rfl⟩ | ⟨-, hexec⟩⟩ := step_cases h
  · exact storesStep_of_eq rfl rfl rfl rfl
  · exact exec_storesStep hexec

theorem map_config_of_accessed {o p : Option Cache} (h : Option.Rel Cache.Accessed o p) :
    p.map Cache.config = o.map Cache.config := by
  cases h with
  | none => rfl
  | some h => simp [config_of_accessed h]

/-- Settles O17: an access keeps the level's configuration. -/
theorem stepKeepsLaunchParameters : Obligations.StepKeepsLaunchParameters := by
  intro s t h
  have hstep := step_storesStep h
  exact ⟨config_of_accessed hstep.l1, map_config_of_accessed hstep.l2, hstep.setting⟩

/-- Settles O48: an access clears no valid bit, and a present level stays. -/
theorem validBitsAreNeverCleared : Obligations.ValidBitsAreNeverCleared := by
  intro s t h
  have hstep := step_storesStep h
  refine ⟨keepsValid_of_accessed hstep.l1, fun c hc => ?_⟩
  have hl2 := hstep.l2
  rw [hc] at hl2
  generalize t.l2 = level at hl2
  cases hl2 with
  | some h => exact ⟨_, rfl, keepsValid_of_accessed h⟩

/-- R21: register 0 is forced to 0 by every dispatch, and the halt step leaves it at 0. -/
theorem step_reg_zero {s t : State} (hs : s.reg 0 = 0) (h : step s = .next t) : t.reg 0 = 0 := by
  obtain ⟨-, -, ⟨-, rfl⟩ | ⟨hdispatch, hexec⟩⟩ := step_cases h
  · exact hs
  · exact exec_reg_zero_of_ne_j_pc hdispatch hexec

/-- Settles O20: a memory write keeps the canonical form, and an access keeps the shape of its level. -/
theorem stepKeepsInvariant : Obligations.StepKeepsInvariant := by
  intro s t hs h
  obtain ⟨hmem, hl1, hl2, -⟩ := step_storesStep h
  refine ⟨?_, step_reg_zero hs.zero h, inv_of_accessed hl1 hs.l1, fun d hd => ?_⟩
  · obtain hmem | ⟨a, v, hmem⟩ := hmem <;> rw [hmem]
    · exact hs.memory
    · exact write_wf _ _ _ hs.memory
  · rw [hd] at hl2
    generalize hc : s.l2 = level at hl2
    cases hl2 with
    | some haccess => exact inv_of_accessed haccess (hs.l2 _ hc)

theorem exec_mem_of_ne_sw {i : Instr} {s t : State} (hsw : ∀ ra rb imm, i ≠ .sw ra rb imm) (h : exec i s = .next t) :
    t.mem = s.mem := by
  cases i with
  | lw ra rb imm => cases h; simp
  | sw ra rb imm => exact absurd rfl (hsw ra rb imm)
  | j target =>
    rw [exec, execJ] at h
    split at h <;> cases h <;> rfl
  | _ => cases h; rfl

theorem instrEvents_of_ne_lw_sw (s : State) {i : Instr} (hlw : ∀ ra rb imm, i ≠ .lw ra rb imm)
    (hsw : ∀ ra rb imm, i ≠ .sw ra rb imm) : s.instrEvents i = [] := by
  cases i with
  | lw ra rb imm => exact absurd rfl (hlw ra rb imm)
  | sw ra rb imm => exact absurd rfl (hsw ra rb imm)
  | _ => rfl

/-- Settles O22: memory, the levels and the events, each by the instructions that reach it. -/
theorem onlyLoadsAndStoresTouchMemoryAndCaches : Obligations.OnlyLoadsAndStoresTouchMemoryAndCaches := by
  refine fun i s t h => ⟨fun hsw => exec_mem_of_ne_sw hsw h, fun hsw hlw => ?_⟩
  obtain ⟨hl1, hl2⟩ := exec_levels_of_ne_lw_sw hlw hsw h
  have hlog := exec_log h
  rw [instrEvents_of_ne_lw_sw s hlw hsw, List.append_nil] at hlog
  exact ⟨hl1, hl2, hlog⟩

end Sys2Proof.Machine
end

section
/-! Where a step is refused, and runs: they go on until they halt (R9, R216), and under LOAD_HIT_READS_MEMORY they do not
depend on the caches (R32). -/

namespace Sys2Proof.Machine

theorem configsAdmitted_iff (s : State) :
    s.configsAdmitted = true ↔ s.l1.config.admitted = true ∧ ∀ c, s.l2 = some c → c.config.admitted = true := by
  simp [State.configsAdmitted, Option.all_eq_true]

theorem step_of_not_admitted {s : State} (hrunning : s.halted = false) (h : s.configsAdmitted = false) :
    step s = .refused .cacheConfigNotAdmitted := by
  simp [step, hrunning, h]

/-- Settles O15: R111 for one level, for both, and the refusal of a state that breaks it. -/
theorem badConfigurationIsRefused : Obligations.BadConfigurationIsRefused := by
  refine ⟨admitted_iff, configsAdmitted_iff, fun s hrunning hbad => step_of_not_admitted hrunning ?_⟩
  rw [Bool.eq_false_iff, ne_eq, configsAdmitted_iff]
  rintro ⟨h1, h2⟩
  obtain hbad | ⟨c, hc, hbad⟩ := hbad
  · simp [h1] at hbad
  · simp [h2 c hc] at hbad

/-- Settles O10: the halt check does what exec of the j to pc does, and any other word is dispatched. -/
theorem stepRunsTheDecodedInstruction : Obligations.StepRunsTheDecodedInstruction := by
  rintro s i hrunning hadmitted - rfl
  by_cases hhalt : decode s.fetch = .j s.pc
  · rw [step_of_decode_eq_j_pc hrunning hadmitted hhalt, hhalt]
    exact (if_pos rfl).symm
  · exact step_of_decode_ne_j_pc hrunning hadmitted hhalt

/-- R111 speaks of configurations alone, which no step changes. -/
theorem step_configsAdmitted {s t : State} (h : step s = .next t) (hs : s.configsAdmitted = true) :
    t.configsAdmitted = true := by
  have byConfigs (u : State) : u.configsAdmitted =
      (u.l1.config.admitted && (u.l2.map Cache.config).all CacheConfig.admitted) := by
    cases hl2 : u.l2 <;> simp [State.configsAdmitted, hl2]
  obtain ⟨hl1, hl2, -⟩ := stepKeepsLaunchParameters s t h
  rw [byConfigs] at hs ⊢
  rwa [hl1, hl2]

theorem step_of_halted {s : State} (h : s.halted = true) : step s = .fault .halted := by
  simp [step, h]

/-- Settles O18: a running machine steps to a state that is admitted again, and a halted one is at its end. -/
theorem runsEndOnlyByHalting : Obligations.RunsEndOnlyByHalting := by
  intro n
  induction n with
  | zero => exact fun _ _ => trivial
  | succ n ih =>
    intro s hs
    cases hhalted : s.halted with
    | true =>
      rw [run_of_fault (step_of_halted hhalted)]
      trivial
    | false =>
      obtain ⟨t, hstep, -⟩ := stepIsTotal s hhalted hs
      rw [run_of_next hstep]
      exact ih t (step_configsAdmitted hstep hs)

theorem sameProgramView_symm {s t : State} (h : s.SameProgramView t) : t.SameProgramView s :=
  ⟨h.regs.symm, h.pc.symm, h.mem.symm, h.halted.symm, h.setting.symm⟩

theorem sameProgramView_trans {s t u : State} (h : s.SameProgramView t) (k : t.SameProgramView u) :
    s.SameProgramView u :=
  ⟨h.regs.trans k.regs, h.pc.trans k.pc, h.mem.trans k.mem, h.halted.trans k.halted, h.setting.trans k.setting⟩

/-- States alike in a program's view differ in the levels and the log alone. -/
theorem eq_of_sameProgramView {s t : State} (h : s.SameProgramView t) :
    t = { s with l1 := t.l1, l2 := t.l2, log := t.log } := by
  obtain ⟨hregs, hpc, hmem, hhalted, hsetting⟩ := h
  rw [hregs, hpc, hmem, hhalted, hsetting]

theorem retire_sameProgramView {s t : State} (h : s.SameProgramView t) (a : Addr) :
    (s.retire a).SameProgramView (t.retire a) := by
  rw [eq_of_sameProgramView h]
  exact ⟨rfl, rfl, rfl, rfl, rfl⟩

/-- R183: under LOAD_HIT_READS_MEMORY what a program sees of a load is the register write. -/
theorem loadWord_sameProgramView {s : State} (h : s.loadHitReadsMemory = true) (rb : Reg) (a : Addr) :
    (s.loadWord rb a).SameProgramView (s.setReg rb (s.mem.read a)) := by
  have hwrites : s.loadWrites (s.cacheLoad a).1 = true := by simp [State.loadWrites, h]
  rw [loadWord_eq, if_pos hwrites]
  exact ⟨by simp, by simp, by simp, by simp, by simp⟩

/-- R184: what a program sees of a store is the memory write. -/
theorem storeWord_sameProgramView (s : State) (rb : Reg) (a : Addr) :
    (s.storeWord rb a).SameProgramView (s.store a (s.reg rb)) :=
  ⟨cacheStore_regs _ a, cacheStore_pc _ a, cacheStore_mem _ a, cacheStore_halted _ a,
    cacheStore_loadHitReadsMemory _ a⟩

/-- An instruction reads no level and no log, but where a load is literal (R183, P3). -/
theorem exec_sameProgramView (i : Instr) {s t : State} (h : s.SameProgramView t) (hset : s.loadHitReadsMemory = true) :
    ∃ s' t', exec i s = .next s' ∧ exec i t = .next t' ∧ s'.SameProgramView t' := by
  have hnext : t.nextPc = s.nextPc := congrArg (· + 1) h.pc.symm
  cases i with
  | lw ra rb imm =>
    refine ⟨_, _, rfl, rfl, ?_⟩
    have hwritten : (s.setReg rb (s.mem.read (s.effAddr ra imm))).SameProgramView
        (t.setReg rb (t.mem.read (t.effAddr ra imm))) := by
      rw [eq_of_sameProgramView h]
      exact ⟨rfl, rfl, rfl, rfl, rfl⟩
    have hs := loadWord_sameProgramView hset rb (s.effAddr ra imm)
    have ht := loadWord_sameProgramView (h.setting ▸ hset) rb (t.effAddr ra imm)
    rw [hnext]
    exact retire_sameProgramView (sameProgramView_trans hs (sameProgramView_trans hwritten (sameProgramView_symm ht))) _
  | sw ra rb imm =>
    refine ⟨_, _, rfl, rfl, ?_⟩
    have hstored : (s.store (s.effAddr ra imm) (s.reg rb)).SameProgramView (t.store (t.effAddr ra imm) (t.reg rb)) := by
      rw [eq_of_sameProgramView h]
      exact ⟨rfl, rfl, rfl, rfl, rfl⟩
    have hs := storeWord_sameProgramView s rb (s.effAddr ra imm)
    have ht := storeWord_sameProgramView t rb (t.effAddr ra imm)
    rw [hnext]
    exact retire_sameProgramView (sameProgramView_trans hs (sameProgramView_trans hstored (sameProgramView_symm ht))) _
  | j target =>
    rw [eq_of_sameProgramView h]
    by_cases hself : target = s.pc
    · exact ⟨_, _, if_pos hself, if_pos hself, rfl, rfl, rfl, rfl, rfl⟩
    · exact ⟨_, _, if_neg hself, if_neg hself, rfl, rfl, rfl, rfl, rfl⟩
  | _ =>
    rw [eq_of_sameProgramView h]
    exact ⟨_, _, rfl, rfl, rfl, rfl, rfl, rfl, rfl⟩

/-- Two running machines alike in a program's view fetch the same word, so they run the same instruction. -/
theorem step_sameProgramView {s t : State} (h : s.SameProgramView t) (hset : s.loadHitReadsMemory = true)
    (hrunning : s.halted = false) (hs : s.configsAdmitted = true) (ht : t.configsAdmitted = true) :
    ∃ s' t', step s = .next s' ∧ step t = .next t' ∧ s'.SameProgramView t' := by
  have hfetch : t.fetch = s.fetch := by rw [State.fetch, State.fetch, h.mem, h.pc]
  rw [stepRunsTheDecodedInstruction s _ hrunning hs (wellFormed_eq_true _) rfl,
    stepRunsTheDecodedInstruction t _ (h.halted ▸ hrunning) ht (wellFormed_eq_true _) rfl, hfetch]
  exact exec_sameProgramView _ h hset

/-- Settles O42: alike states step to alike states until both have halted. -/
theorem correctedRunsDoNotDependOnTheCaches : Obligations.CorrectedRunsDoNotDependOnTheCaches := by
  intro n
  induction n with
  | zero => exact fun s t h _ _ _ => h
  | succ n ih =>
    intro s t h hset hs ht
    cases hhalted : s.halted with
    | true =>
      rw [run_of_fault (step_of_halted hhalted), run_of_fault (step_of_halted (h.halted ▸ hhalted))]
      rfl
    | false =>
      obtain ⟨s', t', hstep, hstep', halike⟩ := step_sameProgramView h hset hhalted hs ht
      rw [run_of_next hstep, run_of_next hstep']
      exact ih s' t' halike ((step_storesStep hstep).setting.trans hset) (step_configsAdmitted hstep hs)
        (step_configsAdmitted hstep' ht)

end Sys2Proof.Machine
end

section
/-! The register and transfer instructions (R160 to R168, R181, R182, R185, R200 to R203): the value written, the
program counter and the frame. -/

namespace Sys2Proof.Machine

/-- R21, R214: a register other than x[0] is retired as it is. -/
theorem retire_reg_of_ne (s : State) (a : Addr) {r : Reg} (h : r ≠ 0) : (s.retire a).reg r = s.reg r := by
  rw [retire_reg, if_neg h]

/-- R214: retiring alone writes x[0] and pc. -/
theorem retire_registerFrame (s : State) (a : Addr) : s.RegisterFrame (s.retire a) [] where
  zero := by simp
  regs _ hr _ := retire_reg_of_ne s a hr
  mem _ := rfl
  l1 := rfl
  l2 := rfl
  log := rfl
  halted := rfl
  setting := rfl

/-- An instruction with one destination writes it, x[0] and pc. -/
theorem setReg_retire_registerFrame (s : State) (rd : Reg) (v : Word) (a : Addr) :
    s.RegisterFrame ((s.setReg rd v).retire a) [rd] where
  zero := by simp
  regs r hr hrd := by
    have hne : r ≠ rd := by simpa using hrd
    rw [retire_reg_of_ne _ _ hr, setReg_reg, if_neg hne]
  mem _ := rfl
  l1 := rfl
  l2 := rfl
  log := rfl
  halted := rfl
  setting := rfl

theorem setReg_retire_reg_same (s : State) {rd : Reg} (h : rd ≠ 0) (v : Word) (a : Addr) :
    ((s.setReg rd v).retire a).reg rd = v := by
  rw [retire_reg_of_ne _ _ h, setReg_reg, if_pos rfl]

/-- An instruction that writes a value to its destination and goes on to the next address: what it answers, in terms of
a property of the value. -/
theorem exec_writes_next {i : Instr} {s : State} {rd : Reg} {v : Word} {P : Word → Prop}
    (hexec : exec i s = .next ((s.setReg rd v).retire s.nextPc)) (hv : P v) :
    ∃ t, exec i s = .next t ∧ (rd ≠ 0 → P (t.reg rd)) ∧ t.pc.toNat = (s.pc.toNat + 1) % 8192 ∧
      s.RegisterFrame t [rd] :=
  ⟨_, hexec, fun h => (setReg_retire_reg_same s h v _).symm ▸ hv, nextPc_toNat s, setReg_retire_registerFrame s rd v _⟩

theorem toNat_sub_int (x y : Word) : ((x - y).toNat : Int) = ((x.toNat : Int) - y.toNat) % 65536 := by
  have hx : x.toNat < 65536 := x.isLt
  have hy : y.toNat < 65536 := y.isLt
  rw [BitVec.toNat_sub]
  omega

/-- R181: the sum with the immediate as sext7 gives it. -/
theorem toNat_add_sext7 (x : Word) (imm : Imm) :
    (x + sext7 imm).toNat = (x.toNat + (if imm.toNat < 64 then imm.toNat else imm.toNat + 65408)) % 65536 := by
  rw [BitVec.toNat_add, sext7_toNat]

/-- Settles O23: the sums and the difference of 16-bit words, as numbers. -/
theorem additionAndSubtraction : Obligations.AdditionAndSubtraction :=
  ⟨fun ra rb _ s => exec_writes_next
      (P := fun w => w.toNat = ((s.reg ra).toNat + (s.reg rb).toNat) % 65536) rfl (BitVec.toNat_add _ _),
    fun ra rb _ s => exec_writes_next
      (P := fun w => (w.toNat : Int) = (((s.reg ra).toNat : Int) - (s.reg rb).toNat) % 65536) rfl (toNat_sub_int _ _),
    fun ra _ imm s => exec_writes_next
      (P := fun w => w.toNat =
        ((s.reg ra).toNat + (if imm.toNat < 64 then imm.toNat else imm.toNat + 65408)) % 65536)
      rfl (toNat_add_sext7 _ _)⟩

/-- Settles O24: the bits of a bitwise result. -/
theorem bitwiseInstructions : Obligations.BitwiseInstructions :=
  ⟨fun ra rb _ s => exec_writes_next
      (P := fun w => ∀ k, w.getLsbD k = ((s.reg ra).getLsbD k || (s.reg rb).getLsbD k)) rfl
      fun _ => BitVec.getLsbD_or,
    fun ra rb _ s => exec_writes_next
      (P := fun w => ∀ k, w.getLsbD k = ((s.reg ra).getLsbD k && (s.reg rb).getLsbD k)) rfl
      fun _ => BitVec.getLsbD_and⟩

theorem setIfLess_toNat (x y : Word) : (setIfLess x y).toNat = if x.toNat < y.toNat then 1 else 0 := by
  rw [setIfLess]
  split <;> rfl

/-- Settles O25: the two comparisons, the second with the extended immediate as an unsigned value. -/
theorem setIfLessInstructions : Obligations.SetIfLessInstructions :=
  ⟨fun ra rb _ s => exec_writes_next
      (P := fun w => w.toNat = if (s.reg ra).toNat < (s.reg rb).toNat then 1 else 0) rfl (setIfLess_toNat _ _),
    fun ra _ imm s => exec_writes_next
      (P := fun w => w.toNat =
        if (s.reg ra).toNat < (if imm.toNat < 64 then imm.toNat else imm.toNat + 65408) then 1 else 0)
      rfl (by rw [← sext7_toNat]; exact setIfLess_toNat _ _)⟩

/-- Settles O26: each of the ten is the one no-op. -/
theorem reservedFunctionCodesAreNoOps : Obligations.ReservedFunctionCodesAreNoOps := by
  intro ra rb rd s i hi
  have hnoOp : exec i s = .next s.noOp := by
    simp only [List.mem_cons, List.not_mem_nil, or_false] at hi
    obtain rfl | rfl | rfl | rfl | rfl | rfl | rfl | rfl | rfl | rfl := hi <;> rfl
  exact ⟨_, hnoOp, nextPc_toNat s, retire_registerFrame s _⟩

/-- Settles O27: the register's low 13 bits. -/
theorem jumpToRegister : Obligations.JumpToRegister :=
  fun ra _ _ s => ⟨_, rfl, toAddr_toNat (s.reg ra), retire_registerFrame s _⟩

/-- R85: the immediate as a signed number. -/
theorem imm_toInt (imm : Imm) :
    imm.toInt = if imm.toNat < 64 then (imm.toNat : Int) else (imm.toNat : Int) - 128 := by
  rw [BitVec.toInt_eq_toNat_cond]
  split <;> split <;> omega

/-- R185: the target of a taken branch as a number. -/
theorem branchTarget_toNat (s : State) (imm : Imm) :
    ((s.branchTarget imm).toNat : Int) = ((s.pc.toNat : Int) + 1 + imm.toInt) % 8192 := by
  have himm : imm.toNat < 128 := imm.isLt
  rw [State.branchTarget, BitVec.toNat_add, nextPc_toNat, toAddr_toNat, sext7_toNat, imm_toInt]
  split <;> omega

/-- Settles O28: the two branches of jeq. -/
theorem branchIfEqual : Obligations.BranchIfEqual := by
  refine fun ra rb imm s => ⟨_, rfl, ?_, retire_registerFrame s _⟩
  rw [retire_pc]
  split
  · exact branchTarget_toNat s imm
  · rw [nextPc_toNat]
    omega

/-- Settles O29: the two branches of j (R201). -/
theorem unconditionalJump : Obligations.UnconditionalJump :=
  fun target s => ⟨fun hne => ⟨_, if_neg hne, rfl, retire_registerFrame s target⟩, fun heq => if_pos heq⟩

/-- Settles O30: the link is written before x[0] is forced, and register 7 is not register 0. -/
theorem jumpAndLink : Obligations.JumpAndLink := by
  refine fun target s => ⟨_, rfl, ?_, rfl, setReg_retire_registerFrame s linkReg s.linkValue target⟩
  have hlink : ((s.setReg linkReg s.linkValue).retire target).reg linkReg = s.linkValue :=
    setReg_retire_reg_same s (by decide) _ _
  rw [← linkValue_toNat]
  exact congrArg BitVec.toNat hlink

/-- Settles O16: the four transfers by their targets; every other instruction retires to the next address. -/
theorem pcAfterEachInstruction : Obligations.PcAfterEachInstruction := by
  intro i s t h
  cases i with
  | jr ra rb rd => cases h; exact toAddr_toNat (s.reg ra)
  | jeq ra rb imm =>
    cases h
    simp only [retire_pc]
    split
    · have := branchTarget_toNat s imm
      omega
    · exact nextPc_toNat s
  | j target =>
    rw [exec, execJ] at h
    split at h
    next hself => cases h; rw [hself]; rfl
    next => cases h; rfl
  | jal target => cases h; rfl
  | _ => cases h; exact nextPc_toNat s

end Sys2Proof.Machine
end

section
/-! Load-word and store-word (R180, R183, R184): the effective address, what each leaves, and one after the other. -/

namespace Sys2Proof.Machine

/-- Settles O31: 8192 divides 65536, so wrapping to 16 bits first changes no effective address. -/
theorem effectiveAddress : Obligations.EffectiveAddress := by
  intro ra imm s
  have himm : imm.toNat < 128 := imm.isLt
  have hwrapped : (s.effAddr ra imm).toNat =
      ((s.reg ra).toNat + (if imm.toNat < 64 then imm.toNat else imm.toNat + 65408)) % 65536 % 8192 := by
    rw [State.effAddr, toAddr_toNat, toNat_add_sext7]
  refine ⟨?_, hwrapped⟩
  rw [hwrapped, imm_toInt]
  split <;> omega

theorem loadWrites_iff (s : State) (o : LoadOutcome) :
    s.loadWrites o = true ↔ o = .miss ∨ s.loadHitReadsMemory = true := by
  simp [State.loadWrites]

theorem exec_lw (ra rb : Reg) (imm : Imm) (s : State) :
    exec (.lw ra rb imm) s = .next ((s.loadWord rb (s.effAddr ra imm)).retire s.nextPc) := rfl

theorem exec_sw (ra rb : Reg) (imm : Imm) (s : State) :
    exec (.sw ra rb imm) s = .next ((s.storeWord rb (s.effAddr ra imm)).retire s.nextPc) := rfl

/-- Settles O32: field by field what a load-word leaves, retired. -/
theorem loadWord : Obligations.LoadWord := by
  intro ra rb imm s a after
  refine ⟨_, exec_lw ra rb imm s, fun hrb => ?_, by simp, fun r hr hne => ?_, nextPc_toNat s,
    fun b => by simp, by simp [after, a], by simp [after, a], by simp [after, a], by simp, by simp⟩
  · rw [retire_reg_of_ne _ _ hrb]
    simp [loadWrites_iff, a]
  · rw [retire_reg_of_ne _ _ hr]
    simp [hne]

/-- Settles O33: field by field what a store-word leaves, retired. -/
theorem storeWord : Obligations.StoreWord := by
  intro ra rb imm s a after
  refine ⟨_, exec_sw ra rb imm s, ?_, fun b hb => ?_, by simp, fun r hr => ?_, nextPc_toNat s,
    by simp [after, a], by simp [after, a], by simp [after, a], by simp, by simp⟩
  · simp [read_write, a]
  · rw [retire_mem, storeWord_mem, read_write, if_neg hb]
  · rw [retire_reg_of_ne _ _ hr, storeWord_reg]

theorem cacheStore_eq_of_l2_absent {s : State} {a : Addr} (h : s.l2 = none) :
    s.cacheStore a = { s with
      l1 := (s.l1.storeAccess a).2
      log := s.log ++ [⟨.l1, .sw, s.pc, a, s.l1.config.rowOf a⟩] } :=
  storeL2_of_none (s.storeL1 a) a h

theorem cacheStore_eq_of_l2_present {s : State} {a : Addr} {c : Cache} (h : s.l2 = some c) :
    s.cacheStore a = { s with
      l1 := (s.l1.storeAccess a).2
      l2 := some (c.storeAccess a).2
      log := s.log ++ [⟨.l1, .sw, s.pc, a, s.l1.config.rowOf a⟩, ⟨.l2, .sw, s.pc, a, c.config.rowOf a⟩] } := by
  rw [State.cacheStore, storeL2_of_some (s.storeL1 a) a c h]
  simp [State.storeL1, State.emit]

/-- Settles O36: the two ways a store goes through the levels. -/
theorem cacheStoreThroughTheHierarchy : Obligations.CacheStoreThroughTheHierarchy := by
  intro s a
  cases h : s.l2 with
  | none => simpa [h] using cacheStore_eq_of_l2_absent h
  | some c => simpa [h] using cacheStore_eq_of_l2_present h

/-- Settles O39: the next fetch reads memory after the store, at the next address. -/
theorem nextFetchSeesTheStore : Obligations.NextFetchSeesTheStore := by
  intro s ra rb imm hrunning hadmitted hsw
  have hstep : step s = .next ((s.storeWord rb (s.effAddr ra imm)).retire s.nextPc) := by
    rw [stepRunsTheDecodedInstruction s _ hrunning hadmitted (wellFormed_eq_true _) hsw, exec_sw]
  refine ⟨_, hstep, ?_⟩
  simp only [State.fetch, retire_mem, retire_pc, storeWord_mem, read_write, State.nextPc]
  simp only [eq_comm]

/-- Settles O40: the store has put the tag in L1's row, so the load hits there, and a literal load that hits writes
nothing. -/
theorem literalLoadAfterStoreKeepsTheRegister : Obligations.LiteralLoadAfterStoreKeepsTheRegister := by
  intro s t ra rb ra' rb' imm imm' hs hset h haddr
  rw [exec_sw] at h
  cases h
  refine ⟨_, exec_lw _ _ _ _, ?_⟩
  rw [haddr]
  generalize s.effAddr ra imm = a
  have hhit : (((s.storeWord rb a).retire s.nextPc).l1.loadAccess a).1 = .hit := by
    simpa using loadAccess_hit_of_storeAccess hs.l1 a
  constructor
  · have hkept : (((s.storeWord rb a).retire s.nextPc).loadWord rb' a).reg rb' =
        ((s.storeWord rb a).retire s.nextPc).reg rb' := by
      rw [loadWord_reg, if_neg (by simp [cacheLoad_eq_of_l1_hit hhit, loadWrites_iff, hset])]
    rw [retire_reg, hkept]
    split
    next hzero => simp [hzero]
    next => rfl
  · simp [cacheLoad_eq_of_l1_hit hhit]

/-- Settles O41: a corrected load reads memory, where the store has just put the value. -/
theorem correctedLoadAfterStoreReturnsTheValue : Obligations.CorrectedLoadAfterStoreReturnsTheValue := by
  intro s t ra rb ra' rb' imm imm' hset h haddr hrb'
  rw [exec_sw] at h
  cases h
  refine ⟨_, exec_lw _ _ _ _, ?_⟩
  rw [haddr, retire_reg_of_ne _ _ hrb']
  simp [loadWrites_iff, hset, read_write]

end Sys2Proof.Machine
end

section
/-! Memory as data (R28, log 5) and the launch (R35 to R40, R237, R262). -/

namespace Sys2Proof.Machine

/-- In a memory whose addresses rise, an entry is what its cell reads as: no entry before it has its address. -/
theorem cellAt_of_mem {m : Memory} (h : m.Pairwise (fun c d => c.1 < d.1)) {c : MemCell} (hc : c ∈ m) :
    m.cellAt c.1 = c.2 := by
  induction m with
  | nil => cases hc
  | cons d rest ih =>
    obtain ⟨hfirst, hrest⟩ := List.pairwise_cons.mp h
    rw [Memory.cellAt]
    obtain rfl | hc := List.mem_cons.mp hc
    · exact if_pos rfl
    · rw [if_neg (Nat.ne_of_gt (hfirst c hc))]
      exact ih hrest hc

/-- A cell that reads as no unlisted one does is listed. -/
theorem mem_of_cellAt_ne {m : Memory} {a : Nat} (h : m.cellAt a ≠ unlistedCell) : (a, m.cellAt a) ∈ m := by
  induction m with
  | nil => exact absurd rfl h
  | cons d rest ih =>
    obtain ⟨k, v⟩ := d
    rw [Memory.cellAt] at h ⊢
    split
    next hk => simp [hk]
    next hk =>
      rw [if_neg hk] at h
      exact List.mem_cons_of_mem _ (ih h)

/-- The entries of a canonical memory, by what its cells read as. -/
theorem mem_iff_of_wf {m : Memory} (h : m.wf) (c : MemCell) :
    c ∈ m ↔ c.1 < 8192 ∧ m.cellAt c.1 = c.2 ∧ c.2 ≠ unlistedCell := by
  constructor
  · intro hc
    obtain ⟨haddr, hvalue⟩ := h.2 c hc
    exact ⟨haddr, cellAt_of_mem h.1 hc, hvalue⟩
  · rintro ⟨-, hread, hvalue⟩
    have := mem_of_cellAt_ne (hread ▸ hvalue)
    rwa [hread] at this

theorem cellAt_eq_of_read_eq {m k : Memory} (h : ∀ a, m.read a = k.read a) {n : Nat} (hn : n < 8192) :
    m.cellAt n = k.cellAt n := by
  have hread := h (BitVec.ofNat 13 n)
  rwa [Memory.read, Memory.read, BitVec.toNat_ofNat, Nat.mod_eq_of_lt hn] at hread

theorem wf_nodup {m : Memory} (h : m.wf) : m.Nodup :=
  h.1.imp fun hlt heq => Nat.ne_of_lt hlt (congrArg Prod.fst heq)

/-- Settles O21: canonical memories that read alike have the same entries, and entries in rising order stand in one
way only. -/
theorem canonicalMemoriesAreEqualWhenTheyReadAlike : Obligations.CanonicalMemoriesAreEqualWhenTheyReadAlike := by
  intro m k hm hk hread
  have hentries (c : MemCell) : c ∈ m ↔ c ∈ k := by
    rw [mem_iff_of_wf hm, mem_iff_of_wf hk]
    exact and_congr_right fun haddr => by rw [cellAt_eq_of_read_eq hread haddr]
  have hperm : m.Perm k := (List.perm_ext_iff_of_nodup (wf_nodup hm) (wf_nodup hk)).mpr hentries
  exact hperm.eq_of_pairwise (fun _ _ _ _ h1 h2 => absurd h1 (Nat.lt_asymm h2)) hm.1 hk.1

/-- The entries of a listing stand at its own addresses and hold no value that unlisted cells have. -/
theorem bounds_of_mem_listingFrom {a : Nat} {ws : List Word} {c : MemCell} (h : c ∈ listingFrom a ws) :
    a ≤ c.1 ∧ c.1 < a + ws.length ∧ c.2 ≠ unlistedCell := by
  induction ws generalizing a with
  | nil => cases h
  | cons w ws ih =>
    have tail (hc : c ∈ listingFrom (a + 1) ws) : a ≤ c.1 ∧ c.1 < a + (w :: ws).length ∧ c.2 ≠ unlistedCell := by
      obtain ⟨hlow, hhigh, hvalue⟩ := ih hc
      exact ⟨by omega, by rw [List.length_cons]; omega, hvalue⟩
    rw [listingFrom] at h
    split at h
    next => exact tail h
    next hw =>
      obtain rfl | h := List.mem_cons.mp h
      · exact ⟨Nat.le_refl a, by simp, hw⟩
      · exact tail h

theorem rising_listingFrom (a : Nat) (ws : List Word) : (listingFrom a ws).Pairwise (fun c d => c.1 < d.1) := by
  induction ws generalizing a with
  | nil => exact .nil
  | cons w ws ih =>
    rw [listingFrom]
    split
    · exact ih (a + 1)
    · refine List.pairwise_cons.mpr ⟨fun c hc => ?_, ih (a + 1)⟩
      obtain ⟨hlow, -⟩ := bounds_of_mem_listingFrom hc
      exact hlow

/-- D8: what a listing from an address on reads as, there and beyond its end. -/
theorem cellAt_listingFrom (a : Nat) (ws : List Word) (k : Nat) :
    (listingFrom a ws).cellAt (a + k) = ws.getD k unlistedCell := by
  induction ws generalizing a k with
  | nil => rfl
  | cons w ws ih =>
    rw [listingFrom]
    cases k with
    | zero =>
      split
      next hw =>
        have habsent : ∀ c ∈ listingFrom (a + 1) ws, c.1 ≠ a := fun c hc => by
          obtain ⟨hlow, -⟩ := bounds_of_mem_listingFrom hc
          omega
        have hread : (listingFrom (a + 1) ws).cellAt a = unlistedCell := by
          by_contra hne
          exact habsent _ (mem_of_cellAt_ne hne) rfl
        simpa [hw] using hread
      next => simp [Memory.cellAt]
    | succ k =>
      have htail := ih (a + 1) k
      rw [Nat.add_right_comm, Nat.add_assoc] at htail
      split
      · simpa using htail
      · simpa [Memory.cellAt] using htail

theorem imageOf_of_fits {ws : List Word} (h : ws.length ≤ 8192) : imageOf ws = .ok (listingFrom 0 ws) := if_pos h

theorem imageOf_of_too_large {ws : List Word} (h : 8192 < ws.length) : imageOf ws = .error .imageTooLarge :=
  if_neg (by omega)

/-- Settles O3: the listing placed from address 0 on, where it fits. -/
theorem imageHoldsTheListing : Obligations.ImageHoldsTheListing := by
  refine fun ws => ⟨fun hfits => ?_, imageOf_of_too_large⟩
  refine ⟨_, imageOf_of_fits hfits, ⟨rising_listingFrom 0 ws, fun c hc => ?_⟩, fun a => ?_⟩
  · obtain ⟨-, hhigh, hvalue⟩ := bounds_of_mem_listingFrom hc
    exact ⟨by omega, hvalue⟩
  · have hcell := cellAt_listingFrom 0 ws a.toNat
    rw [Nat.zero_add] at hcell
    exact hcell

/-- R39: every row of a level at reset is of one form. -/
theorem eq_of_mem_atReset_rows {c : CacheConfig} {row : Row} (h : row ∈ (Cache.atReset c).rows) :
    row = List.replicate c.assoc Block.atReset :=
  List.eq_of_mem_replicate h

theorem eq_of_mem_atReset_row {c : CacheConfig} {row : Row} (h : row ∈ (Cache.atReset c).rows) {b : Block}
    (hb : b ∈ row) : b = Block.atReset := by
  rw [eq_of_mem_atReset_rows h] at hb
  exact List.eq_of_mem_replicate hb

theorem atReset_rows_length (c : CacheConfig) : (Cache.atReset c).rows.length = c.numRows := List.length_replicate

theorem atReset_row_length {c : CacheConfig} {row : Row} (h : row ∈ (Cache.atReset c).rows) :
    row.length = c.assoc := by
  rw [eq_of_mem_atReset_rows h]
  exact List.length_replicate

/-- R39 as O1 states it of a level. -/
theorem atReset_rows_spec (c : CacheConfig) : ∀ row ∈ (Cache.atReset c).rows,
    row.length = c.assoc ∧ ∀ b ∈ row, b.valid = false ∧ b.recency = 0 ∧ b.tag = 0 := by
  refine fun row hrow => ⟨atReset_row_length hrow, fun b hb => ?_⟩
  rw [eq_of_mem_atReset_row hrow hb]
  exact ⟨rfl, rfl, rfl⟩

/-- An admitted level starts in its shape; the relation of R121 holds because no block is valid and all are alike. -/
theorem atReset_inv {c : CacheConfig} (h : c.admitted = true) : (Cache.atReset c).Inv where
  admitted := h
  rowCount := atReset_rows_length c
  blockCount _ hrow := atReset_row_length hrow
  tagBound row hrow b hb := by
    rw [eq_of_mem_atReset_row hrow hb]
    exact Nat.zero_le _
  invalidOldest row hrow b hb _ d hd := by
    rw [eq_of_mem_atReset_row hrow hb, eq_of_mem_atReset_row hrow hd]
    exact ⟨fun _ => rfl, nofun⟩

/-- Settles O1: the fields of a launch, and reset as a launch. -/
theorem launchStateIsTheResetTable : Obligations.LaunchStateIsTheResetTable := by
  refine ⟨fun p image => ⟨rfl, launch_reg p image, fun _ => rfl, rfl, atReset_rows_length p.l1,
    atReset_rows_spec p.l1, by simp, fun c2 hc2 => ?_, rfl⟩, rfl⟩
  exact ⟨Cache.atReset c2, by simp [hc2], rfl, atReset_rows_length c2, atReset_rows_spec c2⟩

/-- Settles O19: the parts of the invariant at a launch; reset is a launch of admitted parameters. -/
theorem invariantHoldsAtLaunch : Obligations.InvariantHoldsAtLaunch := by
  have atLaunch (p : Params) (image : Memory) (hp : p.wellFormed = true) (himage : imageWellFormed image) :
      (State.launch p image).Inv := by
    simp only [Params.wellFormed, Bool.and_eq_true, Option.all_eq_true] at hp
    obtain ⟨h1, h2⟩ := hp
    refine ⟨himage, launch_reg p image 0, atReset_inv h1, fun c hc => ?_⟩
    obtain ⟨c2, hc2, rfl⟩ := Option.map_eq_some_iff.mp hc
    exact atReset_inv (h2 c2 hc2)
  exact ⟨atLaunch, atLaunch Params.standard [] (by decide) reset_memory_wf⟩

/-- R111: what a launch answers under a guard is taken exactly where the guard holds. -/
theorem guarded_eq_ok_iff {p : Prop} [Decidable p] {e : LaunchError} {x y : CacheConfig × Option CacheConfig} :
    (if p then Except.ok x else .error e) = Except.ok y ↔ x = y ∧ p := by
  by_cases hp : p <;> simp [hp]

theorem launchLevels_three (a b c : Nat) (l1 : CacheConfig) (l2 : Option CacheConfig) :
    launchLevels [a, b, c] = .ok (l1, l2) ↔ (⟨a, b, c⟩, none) = (l1, l2) ∧ CacheConfig.admitted ⟨a, b, c⟩ = true := by
  rw [launchLevels, guarded_eq_ok_iff]

theorem launchLevels_six (a b c d e f : Nat) (l1 : CacheConfig) (l2 : Option CacheConfig) :
    launchLevels [a, b, c, d, e, f] = .ok (l1, l2) ↔ (⟨a, b, c⟩, some ⟨d, e, f⟩) = (l1, l2) ∧
      CacheConfig.admitted ⟨a, b, c⟩ = true ∧ CacheConfig.admitted ⟨d, e, f⟩ = true := by
  rw [launchLevels, guarded_eq_ok_iff, Bool.and_eq_true]

/-- Settles O4: by the number of values; any other number is refused. -/
theorem launchTakesOneOrTwoAdmittedLevels : Obligations.LaunchTakesOneOrTwoAdmittedLevels := by
  intro values l1 l2
  constructor
  · intro h
    match values, h with
    | [a, b, c], h =>
      obtain ⟨htaken, hadmitted⟩ := (launchLevels_three a b c l1 l2).mp h
      cases htaken
      exact .inl ⟨rfl, rfl, hadmitted⟩
    | [a, b, c, d, e, f], h =>
      obtain ⟨htaken, hadmitted⟩ := (launchLevels_six a b c d e f l1 l2).mp h
      cases htaken
      exact .inr ⟨_, rfl, rfl, hadmitted⟩
  · rintro (⟨rfl, rfl, hadmitted⟩ | ⟨c, rfl, rfl, hadmitted⟩)
    · exact (launchLevels_three _ _ _ l1 none).mpr ⟨rfl, hadmitted⟩
    · exact (launchLevels_six _ _ _ _ _ _ l1 (some c)).mpr ⟨rfl, hadmitted⟩

end Sys2Proof.Machine
end
